-- ==== Sys2Proof/Word.lean ====
section
/-! DEFINITION. The 16-bit word of the engine and the text of an assembler program. -/

namespace Sys2Proof

/-- A word: 16 bits (00_scope.md R10, 10_state.md R30). `BitVec.toNat` is the spec's `uint16`,
`BitVec.toInt` its `sint16`; arithmetic on words is mod 2^16. -/
abbrev Word := BitVec 16

/-- A text as the assembler and the image reader see it: its characters in order. -/
abbrev Text := List Char

end Sys2Proof
end

