-- ==== Sys2Proof/Config.lean ====
section
/-! DEFINITION. The fixed parameters of the engine (00_scope.md R7) and the readings that R8 names as parameters. -/

namespace Sys2Proof

/-- Number of words of the data memory (00_scope.md R7, 20_memory.md R61). -/
def Config.dataWords : Nat := 65536

/-- The largest `PROG_LEN` (00_scope.md R8). -/
def Config.maxProgLen : Nat := 65536

/-- The largest immediate of `li` (00_scope.md R7, 30_encoding.md R126). -/
def Config.maxImmediate : Nat := 255

/-- `ADD_V_READING` (00_scope.md R8, 92_eei_decisions.md D7): how `add` decides its overflow flag.
Machine/Flags.lean fixes the one the spec decides. -/
inductive AddVReading where
  /-- the signed sum is above 32767 (R220, the spec's choice) -/
  | signedUpper
  /-- the unsigned sum is above 32767 -/
  | unsignedUpper
  /-- the signed sum is outside -32768 to 32767 -/
  | twosComplement
deriving DecidableEq, Repr

/-- `SUB_S_READING` (00_scope.md R8, 92_eei_decisions.md D8): how `sub` decides its sign flag.
Machine/Flags.lean fixes the one the spec decides. -/
inductive SubSReading where
  /-- bit 15 of the stored result (R223, the spec's choice) -/
  | resultMsb
  /-- the first operand is below the second, both signed -/
  | signedLess
  /-- the first operand is below the second, both unsigned -/
  | unsignedLess
deriving DecidableEq, Repr

end Sys2Proof
end

