-- ==== Sys2Proof/Syntax.lean ====
section
/-! DEFINITION. The instructions: one constructor for each row of spec/opcode_table.json. -/

namespace Sys2Proof

/-- A register index, 0 to 15 (10_state.md R30, 30_encoding.md R98). -/
abbrev Reg := Fin 16

/-- Register 15, the program counter (10_state.md R32). -/
abbrev pcReg : Reg := 15

/-- The conditions of the conditional jumps, in the order of their flag-select codes (30_encoding.md R99). -/
inductive FlagCond where
  | carry | noCarry | zero | notZero | sign | notSign | overflow | noOverflow
deriving DecidableEq, Repr

/-- The 24 instructions (00_scope.md R2, 30_encoding.md R102), operands in the order they are written (R123). -/
inductive Instr where
  /-- stop the engine (R170) -/
  | halt
  /-- `li rD, imm` (R172) -/
  | li (rd : Reg) (imm8 : BitVec 8)
  /-- `ld rD, (rA)` (R180) -/
  | ld (rd ra : Reg)
  /-- `st rA, (rV)`: the FIRST operand is the address, the second the value (R183, R184) -/
  | st (ra rv : Reg)
  /-- `jp rT` (R190) -/
  | jp (rt : Reg)
  /-- jump if carry (R193) -/
  | jpc (rt : Reg)
  /-- jump if no carry (R194) -/
  | jpnc (rt : Reg)
  /-- jump if zero (R195) -/
  | jpz (rt : Reg)
  /-- jump if not zero (R196) -/
  | jpnz (rt : Reg)
  /-- jump if sign (R197) -/
  | jps (rt : Reg)
  /-- jump if not sign (R198) -/
  | jpns (rt : Reg)
  /-- jump if overflow (R199) -/
  | jpo (rt : Reg)
  /-- jump if no overflow (R200) -/
  | jpno (rt : Reg)
  /-- copy and clear the flags (R212) -/
  | nop (dst src : Reg)
  /-- bitwise OR (R214) -/
  | or (dst src : Reg)
  /-- bitwise AND (R215) -/
  | and (dst src : Reg)
  /-- bitwise exclusive OR (R216) -/
  | xor (dst src : Reg)
  /-- add (R219) -/
  | add (dst src : Reg)
  /-- subtract (R222) -/
  | sub (dst src : Reg)
  /-- shift left (R227) -/
  | shl (dst src : Reg)
  /-- logical shift right (R228) -/
  | shr (dst src : Reg)
  /-- arithmetic shift right (R229) -/
  | ashr (dst src : Reg)
  /-- one's complement (R232) -/
  | not (dst src : Reg)
  /-- two's complement (R233) -/
  | neg (dst src : Reg)
deriving DecidableEq, Repr

end Sys2Proof
end

