-- ==== Sys2Proof/WellFormed.lean ====
section
/-! DEFINITION. The range checks of the spec on numbers that come from outside the typed syntax: an operand number of
an assembler text, an address taken for an immediate, an image to be loaded. Every term of `Instr` is well formed by
its types: a register index is below 16 and an immediate has 8 bits (30_encoding.md R97, R98). -/

namespace Sys2Proof

/-- A register number as written is 0 to 15 (30_encoding.md R124). -/
def regNumberOk (n : Nat) : Bool := decide (n < 16)

/-- A number or a label address used as an immediate is 0 to 255 (30_encoding.md R126, R127). -/
def immediateOk (n : Nat) : Bool := decide (n ≤ Config.maxImmediate)

/-- An image fits the instruction memory: at most 65536 words (00_scope.md R8, 20_memory.md R66). -/
def imageOk (img : List Word) : Bool := decide (img.length ≤ Config.maxProgLen)

end Sys2Proof
end

