-- ==== Sys2Proof/Decode.lean ====
section
/-! DEFINITION. The decoder and the encoder: 30_encoding.md R90 to R109. -/

namespace Sys2Proof

/-- Why a word is not an instruction: it is one of the unassigned words (30_encoding.md R107, R108). -/
inductive DecodeError where
  | unassigned
deriving DecidableEq, Repr

/-- Bits `lo + len - 1` down to `lo` of a word (00_scope.md R9). -/
def field (w : Word) (lo len : Nat) : BitVec len := w.extractLsb' lo len

/-- The four-bit register field whose lowest bit is `lo` (30_encoding.md R98). -/
def regField (w : Word) (lo : Nat) : Reg := ⟨(field w lo 4).toNat, (field w lo 4).isLt⟩

/-- The four bits that encode a register index (30_encoding.md R98). -/
def regBits (r : Reg) : BitVec 4 := BitVec.ofNat 4 r.val

/-- The flag-select code of a condition (30_encoding.md R99). -/
def FlagCond.code : FlagCond → BitVec 3
  | .carry => 0b000#3
  | .noCarry => 0b001#3
  | .zero => 0b010#3
  | .notZero => 0b011#3
  | .sign => 0b100#3
  | .notSign => 0b101#3
  | .overflow => 0b110#3
  | .noOverflow => 0b111#3

/-- The conditional jump of a flag-select code (30_encoding.md R99). -/
def condJumpOf (cc : BitVec 3) (rt : Reg) : Instr :=
  if cc = 0b000#3 then .jpc rt
  else if cc = 0b001#3 then .jpnc rt
  else if cc = 0b010#3 then .jpz rt
  else if cc = 0b011#3 then .jpnz rt
  else if cc = 0b100#3 then .jps rt
  else if cc = 0b101#3 then .jpns rt
  else if cc = 0b110#3 then .jpo rt
  else .jpno rt

/-- The ALU operation of an eight-bit tag, if the tag is one of 0x40 to 0x4A (30_encoding.md R101).
UNVERIFIED, log 6: the order of the tags is the spec's decision D5. -/
def aluOf (tag : BitVec 8) (dst src : Reg) : Except DecodeError Instr :=
  if tag = 0x40#8 then .ok (.nop dst src)
  else if tag = 0x41#8 then .ok (.or dst src)
  else if tag = 0x42#8 then .ok (.and dst src)
  else if tag = 0x43#8 then .ok (.xor dst src)
  else if tag = 0x44#8 then .ok (.add dst src)
  else if tag = 0x45#8 then .ok (.sub dst src)
  else if tag = 0x46#8 then .ok (.shl dst src)
  else if tag = 0x47#8 then .ok (.shr dst src)
  else if tag = 0x48#8 then .ok (.ashr dst src)
  else if tag = 0x49#8 then .ok (.not dst src)
  else if tag = 0x4A#8 then .ok (.neg dst src)
  else .error .unassigned

/-- The decoder (30_encoding.md R103): total on every 16-bit word. -/
def decode (w : Word) : Except DecodeError Instr :=
  if w = 0x0000#16 then .ok .halt
  else if field w 12 4 = 0b0001#4 then .ok (.li (regField w 0) (field w 4 8))
  else if field w 8 8 = 0x80#8 then .ok (.ld (regField w 4) (regField w 0))
  else if field w 8 8 = 0xA0#8 then .ok (.st (regField w 4) (regField w 0))
  else if field w 4 12 = 0xC00#12 then .ok (.jp (regField w 0))
  else if field w 7 9 = 0b111100000#9 then .ok (condJumpOf (field w 4 3) (regField w 0))
  else aluOf (field w 8 8) (regField w 4) (regField w 0)

/-- Format I: tag `0001`, immediate, register (30_encoding.md R93). -/
def formatI (imm8 : BitVec 8) (rd : Reg) : Word := 0b0001#4 ++ imm8 ++ regBits rd

/-- Format RR: eight-bit tag, first register, second register (30_encoding.md R94). -/
def formatRR (tag : BitVec 8) (r1 r2 : Reg) : Word := tag ++ regBits r1 ++ regBits r2

/-- Format J: tag `110000000000`, register (30_encoding.md R95). -/
def formatJ (rt : Reg) : Word := 0b110000000000#12 ++ regBits rt

/-- Format JC: tag `111100000`, flag-select code, register (30_encoding.md R96). -/
def formatJC (cc : FlagCond) (rt : Reg) : Word := 0b111100000#9 ++ cc.code ++ regBits rt

/-- The encoder (30_encoding.md R104, in the layouts of R92 to R96). -/
def encode : Instr → Word
  | .halt => 0x0000#16
  | .li rd imm8 => formatI imm8 rd
  | .ld rd ra => formatRR 0x80#8 rd ra
  | .st ra rv => formatRR 0xA0#8 ra rv
  | .jp rt => formatJ rt
  | .jpc rt => formatJC .carry rt
  | .jpnc rt => formatJC .noCarry rt
  | .jpz rt => formatJC .zero rt
  | .jpnz rt => formatJC .notZero rt
  | .jps rt => formatJC .sign rt
  | .jpns rt => formatJC .notSign rt
  | .jpo rt => formatJC .overflow rt
  | .jpno rt => formatJC .noOverflow rt
  | .nop dst src => formatRR 0x40#8 dst src
  | .or dst src => formatRR 0x41#8 dst src
  | .and dst src => formatRR 0x42#8 dst src
  | .xor dst src => formatRR 0x43#8 dst src
  | .add dst src => formatRR 0x44#8 dst src
  | .sub dst src => formatRR 0x45#8 dst src
  | .shl dst src => formatRR 0x46#8 dst src
  | .shr dst src => formatRR 0x47#8 dst src
  | .ashr dst src => formatRR 0x48#8 dst src
  | .not dst src => formatRR 0x49#8 dst src
  | .neg dst src => formatRR 0x4A#8 dst src

/-- One row of the opcode map (30_encoding.md R102): a word `w` spells it when `w &&& mask = pattern`. -/
structure OpcodeRow where
  mnemonic : String
  pattern : Word
  mask : Word
deriving DecidableEq, Repr

/-- `w & mask == match` (30_encoding.md R102). -/
def OpcodeRow.spells (r : OpcodeRow) (w : Word) : Bool := w &&& r.mask == r.pattern

/-- The row of the opcode map that an instruction belongs to (30_encoding.md R102). -/
def Instr.row : Instr → OpcodeRow
  | .halt => ⟨"halt", 0x0000#16, 0xFFFF#16⟩
  | .li _ _ => ⟨"li", 0x1000#16, 0xF000#16⟩
  | .ld _ _ => ⟨"ld", 0x8000#16, 0xFF00#16⟩
  | .st _ _ => ⟨"st", 0xA000#16, 0xFF00#16⟩
  | .jp _ => ⟨"jp", 0xC000#16, 0xFFF0#16⟩
  | .jpc _ => ⟨"jpc", 0xF000#16, 0xFFF0#16⟩
  | .jpnc _ => ⟨"jpnc", 0xF010#16, 0xFFF0#16⟩
  | .jpz _ => ⟨"jpz", 0xF020#16, 0xFFF0#16⟩
  | .jpnz _ => ⟨"jpnz", 0xF030#16, 0xFFF0#16⟩
  | .jps _ => ⟨"jps", 0xF040#16, 0xFFF0#16⟩
  | .jpns _ => ⟨"jpns", 0xF050#16, 0xFFF0#16⟩
  | .jpo _ => ⟨"jpo", 0xF060#16, 0xFFF0#16⟩
  | .jpno _ => ⟨"jpno", 0xF070#16, 0xFFF0#16⟩
  | .nop _ _ => ⟨"nop", 0x4000#16, 0xFF00#16⟩
  | .or _ _ => ⟨"or", 0x4100#16, 0xFF00#16⟩
  | .and _ _ => ⟨"and", 0x4200#16, 0xFF00#16⟩
  | .xor _ _ => ⟨"xor", 0x4300#16, 0xFF00#16⟩
  | .add _ _ => ⟨"add", 0x4400#16, 0xFF00#16⟩
  | .sub _ _ => ⟨"sub", 0x4500#16, 0xFF00#16⟩
  | .shl _ _ => ⟨"shl", 0x4600#16, 0xFF00#16⟩
  | .shr _ _ => ⟨"shr", 0x4700#16, 0xFF00#16⟩
  | .ashr _ _ => ⟨"ashr", 0x4800#16, 0xFF00#16⟩
  | .not _ _ => ⟨"not", 0x4900#16, 0xFF00#16⟩
  | .neg _ _ => ⟨"neg", 0x4A00#16, 0xFF00#16⟩

/-- One instruction of each kind, in the order of the opcode table (00_scope.md R2). -/
def oneOfEach : List Instr :=
  [.halt, .li 0 0, .ld 0 0, .st 0 0, .jp 0, .jpc 0, .jpnc 0, .jpz 0, .jpnz 0, .jps 0, .jpns 0, .jpo 0, .jpno 0,
   .nop 0 0, .or 0 0, .and 0 0, .xor 0 0, .add 0 0, .sub 0 0, .shl 0 0, .shr 0 0, .ashr 0 0, .not 0 0, .neg 0 0]

/-- The complete opcode map, 24 rows (30_encoding.md R102). -/
def opcodeMap : List OpcodeRow := oneOfEach.map Instr.row

/-- The instruction the decoder reads from the word whose bits, numbered as spec/opcode_table.json numbers
them, are `w`: every instruction is one 16-bit word (30_encoding.md R90), so the word is its own bits and
those above `nbits` are 0. -/
def decodeTableWord (nbits w : Nat) : Option Instr :=
  match decode (BitVec.ofNat 16 (w % 2 ^ nbits)) with
  | .ok i => some i
  | .error _ => none

end Sys2Proof
end

