-- ==== Sys2Proof/Machine/State.lean ====
section
/-! DEFINITION. The architectural state (10_state.md, 20_memory.md), the state after reset, and the reasons a step can
end without a next state. -/

namespace Sys2Proof.Machine

/-- The four flags (10_state.md R40): carry, zero, sign, overflow. -/
structure Flags where
  c : Bool
  z : Bool
  s : Bool
  v : Bool
deriving DecidableEq, Repr

/-- The run state (10_state.md R46). -/
inductive RunState where
  | running | halted | faulted
deriving DecidableEq, Repr

/-- The two faults of the engine (60_exceptions.md R250). -/
inductive FaultCause where
  /-- the fetch address is at or past `PROG_LEN` (R253) -/
  | fetchOutOfRange
  /-- the fetched word matches no row of the opcode map (R254) -/
  | illegalInstruction
deriving DecidableEq, Repr

/-- The fault record (10_state.md R48): cause, the pc at the start of the faulting step, the word fetched if any. -/
structure FaultRecord where
  cause : FaultCause
  faultPc : Word
  faultWord : Option Word
deriving DecidableEq, Repr

/-- The architectural state: the tuple `(x[0..15], C, Z, S, V, M, run, fault)` and the instruction memory
(10_state.md, its opening; 20_memory.md R61, R66). -/
structure State where
  /-- `x[0]` to `x[15]`; entry 15 is the program counter (10_state.md R30, R32) -/
  regs : Vector Word 16
  /-- `C`, `Z`, `S`, `V` (10_state.md R40) -/
  flags : Flags
  /-- the data memory `M`, in canonical form (`memWf` in Machine/Ops.lean): the word at address `n` is the cells
  `2 n`, its high byte, and `2 n + 1`, its low byte (log 1) -/
  mem : List Host.Cell
  /-- the instruction memory `IMEM`, word `n` at address `n`; `PROG_LEN` is its length (20_memory.md R66, 00_scope.md R8) -/
  imem : List Word
  /-- `run` (10_state.md R46) -/
  run : RunState
  /-- `fault` (10_state.md R48) -/
  fault : Option FaultRecord
deriving DecidableEq, Repr

/-- Why `step` answers no next state: the run state in which there is no step (40_execution_cycle.md R151). The two
faults of the spec are NOT here: their entry is a next state (60_exceptions.md R252). -/
inductive Fault where
  /-- raised by `step` in HALTED: the run has ended normally and there is no step (R151, R171). Safe. -/
  | haltedHasNoStep
  /-- raised by `step` in FAULTED: the run has ended in a fault and there is no step (R151, R257). Safe. -/
  | faultedHasNoStep
deriving DecidableEq, Repr

/-- Why the model gives an instruction no meaning. -/
inductive Refusal where
  /-- raised by an arm of `exec` whose instruction has no meaning yet (no arm does). Safe. -/
  | notModelled (mnemonic : String)
deriving DecidableEq, Repr

/-- The engine right after reset (70_reset_and_hazards.md R280; 10_state.md R35, R39, R44, R49; 20_memory.md R64).
Reset does not change the instruction memory, so it has no reset value of the spec's: here no image has been loaded.
DESIGN CHOICE, log 2. -/
def State.reset : State where
  regs := Vector.replicate 16 0#16
  flags := { c := false, z := false, s := false, v := false }
  mem := []
  imem := []
  run := .running
  fault := none

end Sys2Proof.Machine
end

