-- ==== Sys2Proof/Machine/Flags.lean ====
section
/-! DEFINITION. Every flag computation (44_alu.md) and the conditions of the conditional jumps (30_encoding.md R99). -/

namespace Sys2Proof.Machine

/-- The reading of `add`'s overflow flag (44_alu.md R220). UNVERIFIED, log 8: the spec's decision D7. -/
def addVReading : AddVReading := .signedUpper

/-- The reading of `sub`'s sign flag (44_alu.md R223). UNVERIFIED, log 9: the spec's decision D8. -/
def subSReading : SubSReading := .resultMsb

/-- The overflow flag of `add` under a reading (44_alu.md R220; the alternatives: 92_eei_decisions.md D7). -/
def addOverflow (r : AddVReading) (a b : Word) : Bool :=
  match r with
  | .signedUpper => decide (a.toInt + b.toInt > 32767)
  | .unsignedUpper => decide (a.toNat + b.toNat > 32767)
  | .twosComplement => decide (a.toInt + b.toInt > 32767) || decide (a.toInt + b.toInt < -32768)

/-- The sign flag of `sub` under a reading (44_alu.md R222, R223; the alternatives: 92_eei_decisions.md D8). -/
def subSign (r : SubSReading) (a b : Word) : Bool :=
  match r with
  | .resultMsb => (a - b != 0#16) && (a - b).msb
  | .signedLess => decide (a.toInt < b.toInt)
  | .unsignedLess => decide (a.toNat < b.toNat)

/-- All four flags cleared (44_alu.md R212). -/
def clearedFlags : Flags := { c := false, z := false, s := false, v := false }

/-- The flags of `or`, `and`, `xor`: `Z` from the result, the others cleared (44_alu.md R214 to R216). -/
def logicFlags (res : Word) : Flags := { c := false, z := res == 0#16, s := false, v := false }

/-- The flags of `add` (44_alu.md R219 to R221). -/
def addFlags (a b : Word) : Flags :=
  { c := false, z := a + b == 0#16, s := false, v := addOverflow addVReading a b }

/-- The flags of `sub` (44_alu.md R222, R223). -/
def subFlags (a b : Word) : Flags :=
  { c := false, z := a - b == 0#16, s := subSign subSReading a b, v := false }

/-- Whether a condition holds (30_encoding.md R99, R100). -/
def condHolds (cc : FlagCond) (f : Flags) : Bool :=
  match cc with
  | .carry => f.c
  | .noCarry => !f.c
  | .zero => f.z
  | .notZero => !f.z
  | .sign => f.s
  | .notSign => !f.s
  | .overflow => f.v
  | .noOverflow => !f.v

end Sys2Proof.Machine
end

