-- ==== Sys2Proof/Machine/Ops.lean ====
section
/-! DEFINITION. The named operations over registers and memories, the entry into a fault, and the end of an instruction. -/

namespace Sys2Proof.Machine

/-! ### Registers (10_state.md R30 to R38) -/

/-- `x[r]` (00_scope.md R11). -/
def State.reg (s : State) (r : Reg) : Word := s.regs[r.val]

/-- `x[r] <- v` (00_scope.md R11). No register is hardwired (10_state.md R31). -/
def State.setReg (s : State) (r : Reg) (v : Word) : State := { s with regs := s.regs.set r.val v }

/-- `pc`, another name for `x[15]` (10_state.md R32). -/
def State.pc (s : State) : Word := s.reg pcReg

/-- `pc <- v`. -/
def State.setPc (s : State) (v : Word) : State := s.setReg pcReg v

/-- The advance of the pc by one, mod 2^16, from the value `x[15]` holds after the instruction executed
(40_execution_cycle.md R155, R156, R159). UNVERIFIED, log 14 and log 15: R156 and the wrap are the spec's decisions D13 and D14. -/
def State.advancePc (s : State) : State := s.setPc (s.pc + 1#16)

/-! ### Data memory (20_memory.md R61 to R65) -/

/-- What a cell reads as when it is not listed: 0, because every word is 0 at reset (20_memory.md R64). -/
def unlistedByte : BitVec 8 := 0#8

/-- The number of cells: two for each word of the data memory (20_memory.md R61, log 1). -/
def memCells : Nat := 2 * Config.dataWords

/-- One byte of the data memory. -/
def readByte (m : List Host.Cell) (k : Nat) : BitVec 8 :=
  match m with
  | [] => unlistedByte
  | (a, b) :: rest => if a = k then b else readByte rest k

/-- A cell before a list, left out where it holds what an unlisted cell reads as. -/
def consCell (k : Nat) (b : BitVec 8) (m : List Host.Cell) : List Host.Cell :=
  if b = unlistedByte then m else (k, b) :: m

/-- Write one byte, keeping the addresses rising and no cell that reads as unlisted. -/
def writeByte (m : List Host.Cell) (k : Nat) (b : BitVec 8) : List Host.Cell :=
  match m with
  | [] => consCell k b []
  | (a, c) :: rest =>
    if k < a then consCell k b ((a, c) :: rest)
    else if k = a then consCell k b rest
    else (a, c) :: writeByte rest k b

/-- The cells from address `lo` on are in canonical form: addresses strictly rising and inside the memory, no cell
that reads as unlisted. -/
def memWfFrom (lo : Nat) (m : List Host.Cell) : Bool :=
  match m with
  | [] => true
  | (a, b) :: rest => decide (lo ≤ a) && decide (a < memCells) && decide (b ≠ unlistedByte) && memWfFrom (a + 1) rest

/-- The canonical form of the data memory. -/
def memWf (m : List Host.Cell) : Bool := memWfFrom 0 m

/-- The cell of the high byte of the word at an address (log 1). -/
def highCell (addr : Word) : Nat := 2 * addr.toNat

/-- The cell of the low byte of the word at an address (log 1). -/
def lowCell (addr : Word) : Nat := 2 * addr.toNat + 1

/-- `MemRead(addr, 1)`: one word of the data memory (20_memory.md R63). Every address is valid (R62). -/
def memRead (m : List Host.Cell) (addr : Word) : Word := readByte m (highCell addr) ++ readByte m (lowCell addr)

/-- `MemWrite(addr, 1, v)`: one word of the data memory (20_memory.md R63). -/
def memWrite (m : List Host.Cell) (addr v : Word) : List Host.Cell :=
  writeByte (writeByte m (highCell addr) (v.extractLsb' 8 8)) (lowCell addr) (v.extractLsb' 0 8)

/-! ### Instruction memory (20_memory.md R66 to R69) -/

/-- `PROG_LEN` (00_scope.md R8). -/
def State.progLen (s : State) : Nat := s.imem.length

/-- `IFetch(a)`: the word at instruction address `a`, or none at or past `PROG_LEN` (20_memory.md R67). -/
def State.iFetch (s : State) (a : Word) : Option Word := s.imem[a.toNat]?

/-! ### Fault entry and the end of an instruction -/

/-- The code of a cause (60_exceptions.md R250). -/
def FaultCause.code : FaultCause → Nat
  | .fetchOutOfRange => 1
  | .illegalInstruction => 2

/-- Fault entry (60_exceptions.md R252): the record and the run state change, nothing else. There is no handler, no
vector and no return (R256, R257); only the host's reset leaves FAULTED (`hostReset`). UNVERIFIED, log 5. -/
def State.raise (s : State) (cause : FaultCause) (word : Option Word) : State :=
  { s with run := .faulted, fault := some { cause := cause, faultPc := s.pc, faultWord := word } }

/-- The three outcomes an instruction's rule returns to the step (40_execution_cycle.md, its opening). -/
inductive Completion where
  | next | jumped | halted
deriving DecidableEq, Repr

/-- What the step does after the instruction's rule (40_execution_cycle.md R152): advance the pc, leave it as the jump
set it, or halt with the pc kept. -/
def finish (c : Completion) (s : State) : Host.Outcome State Fault Refusal :=
  match c with
  | .next => .next s.advancePc
  | .jumped => .next s
  | .halted => .next { s with run := .halted }

/-- Write a result register and return `next`. -/
def writeResult (dst : Reg) (res : Word) (s : State) : Host.Outcome State Fault Refusal :=
  finish .next (s.setReg dst res)

/-- Write a result register and the flags and return `next`. -/
def writeResultFlags (dst : Reg) (res : Word) (f : Flags) (s : State) : Host.Outcome State Fault Refusal :=
  finish .next ({ s with flags := f }.setReg dst res)

end Sys2Proof.Machine
end

