-- ==== Sys2Proof/Machine/Operands.lean ====
section
/-! DEFINITION. Operand forms, and the words the operations compute. -/

namespace Sys2Proof.Machine

/-- The immediate of `li`: eight bits, unsigned, zero-extended (30_encoding.md R97). -/
def immediate (imm8 : BitVec 8) : Word := imm8.setWidth 16

/-- The only addressing mode: the whole value of one register (42_load_store.md R181). -/
def dataAddress (s : State) (ra : Reg) : Word := s.reg ra

/-- The target of a jump: the whole value of one register (43_jumps.md R190, R191). -/
def jumpTarget (s : State) (rt : Reg) : Word := s.reg rt

/-- The shift count: the value read as unsigned, 0 to 65535 (44_alu.md R225). UNVERIFIED, log 10. -/
def shiftCount (b : Word) : Nat := b.toNat

/-- `shl` (44_alu.md R227, closed form). -/
def shlResult (a b : Word) : Word :=
  if shiftCount b < 16 then a <<< shiftCount b else 0x0000#16

/-- `shr` (44_alu.md R228, closed form). -/
def shrResult (a b : Word) : Word :=
  if shiftCount b < 16 then a >>> shiftCount b else 0x0000#16

/-- `ashr` (44_alu.md R229, closed form). -/
def ashrResult (a b : Word) : Word :=
  if shiftCount b < 16 then a.sshiftRight (shiftCount b) else if a.msb then 0xFFFF#16 else 0x0000#16

/-- One position left, a 0 at the low end (44_alu.md R227). -/
def shlOnce (a : Word) : Word := a.extractLsb' 0 15 ++ 0#1

/-- One position right, a 0 at the high end (44_alu.md R228). -/
def shrOnce (a : Word) : Word := 0#1 ++ a.extractLsb' 1 15

/-- One position right, the sign bit replicated (44_alu.md R229). -/
def ashrOnce (a : Word) : Word := a.extractLsb' 15 1 ++ a.extractLsb' 1 15

/-- "one bit position at a time, `src` times" (44_alu.md R225): `f` applied `n` times. -/
def repeatTimes (n : Nat) (f : Word → Word) (a : Word) : Word :=
  match n with
  | 0 => a
  | n + 1 => repeatTimes n f (f a)

/-- `neg` (44_alu.md R233). -/
def negResult (b : Word) : Word := ~~~b + 1#16

end Sys2Proof.Machine
end

