-- ==== Sys2Proof/Machine/Alu.lean ====
section
/-! DEFINITION. The eleven ALU operations (44_alu.md). Both operands are read before anything is written (40_execution_cycle.md R153). -/

namespace Sys2Proof.Machine

/-- `nop rD, rS` (R212): copy, all flags cleared. -/
def execNop (dst src : Reg) (s : State) : Host.Outcome State Fault Refusal :=
  writeResultFlags dst (s.reg src) clearedFlags s

/-- `or rD, rS` (R214). -/
def execOr (dst src : Reg) (s : State) : Host.Outcome State Fault Refusal :=
  writeResultFlags dst (s.reg dst ||| s.reg src) (logicFlags (s.reg dst ||| s.reg src)) s

/-- `and rD, rS` (R215). -/
def execAnd (dst src : Reg) (s : State) : Host.Outcome State Fault Refusal :=
  writeResultFlags dst (s.reg dst &&& s.reg src) (logicFlags (s.reg dst &&& s.reg src)) s

/-- `xor rD, rS` (R216). -/
def execXor (dst src : Reg) (s : State) : Host.Outcome State Fault Refusal :=
  writeResultFlags dst (s.reg dst ^^^ s.reg src) (logicFlags (s.reg dst ^^^ s.reg src)) s

/-- `add rD, rS` (R219). -/
def execAdd (dst src : Reg) (s : State) : Host.Outcome State Fault Refusal :=
  writeResultFlags dst (s.reg dst + s.reg src) (addFlags (s.reg dst) (s.reg src)) s

/-- `sub rD, rS` (R222). -/
def execSub (dst src : Reg) (s : State) : Host.Outcome State Fault Refusal :=
  writeResultFlags dst (s.reg dst - s.reg src) (subFlags (s.reg dst) (s.reg src)) s

/-- `shl rD, rS` (R227, R231): no flag written. UNVERIFIED, log 11: the count is read once (R226). -/
def execShl (dst src : Reg) (s : State) : Host.Outcome State Fault Refusal :=
  writeResult dst (shlResult (s.reg dst) (s.reg src)) s

/-- `shr rD, rS` (R228, R231): no flag written. UNVERIFIED, log 11: the count is read once (R226). -/
def execShr (dst src : Reg) (s : State) : Host.Outcome State Fault Refusal :=
  writeResult dst (shrResult (s.reg dst) (s.reg src)) s

/-- `ashr rD, rS` (R229, R231): no flag written. UNVERIFIED, log 11: the count is read once (R226). -/
def execAshr (dst src : Reg) (s : State) : Host.Outcome State Fault Refusal :=
  writeResult dst (ashrResult (s.reg dst) (s.reg src)) s

/-- `not rD, rS` (R232). UNVERIFIED, log 12: no flag written is the spec's decision D11. -/
def execNot (dst src : Reg) (s : State) : Host.Outcome State Fault Refusal :=
  writeResult dst (~~~(s.reg src)) s

/-- `neg rD, rS` (R233). UNVERIFIED, log 12: no flag written is the spec's decision D11. -/
def execNeg (dst src : Reg) (s : State) : Host.Outcome State Fault Refusal :=
  writeResult dst (negResult (s.reg src)) s

end Sys2Proof.Machine
end

