-- ==== Sys2Proof/Machine/HaltLi.lean ====
section
/-! DEFINITION. `halt` and `li` (41_halt_li.md). -/

namespace Sys2Proof.Machine

/-- `halt` (R170): HALTED, the pc kept, nothing else changed. -/
def execHalt (s : State) : Host.Outcome State Fault Refusal := finish .halted s

/-- `li rD, imm` (R172, R173). -/
def execLi (rd : Reg) (imm8 : BitVec 8) (s : State) : Host.Outcome State Fault Refusal :=
  writeResult rd (immediate imm8) s

end Sys2Proof.Machine
end

