-- ==== Sys2Proof/Machine/Jumps.lean ====
section
/-! DEFINITION. `jp` and the eight conditional jumps (43_jumps.md). -/

namespace Sys2Proof.Machine

/-- The pc becomes the target, with no increment (43_jumps.md R190, 40_execution_cycle.md R157). -/
def takeJump (rt : Reg) (s : State) : Host.Outcome State Fault Refusal :=
  finish .jumped (s.setPc (jumpTarget s rt))

/-- The common rule of the conditional jumps (43_jumps.md R192). -/
def jumpIf (cc : FlagCond) (rt : Reg) (s : State) : Host.Outcome State Fault Refusal :=
  if condHolds cc s.flags then takeJump rt s else finish .next s

/-- `jp rT` (R190). -/
def execJp (rt : Reg) (s : State) : Host.Outcome State Fault Refusal := takeJump rt s

/-- `jpc rT` (R193). -/
def execJpc (rt : Reg) (s : State) : Host.Outcome State Fault Refusal := jumpIf .carry rt s

/-- `jpnc rT` (R194). -/
def execJpnc (rt : Reg) (s : State) : Host.Outcome State Fault Refusal := jumpIf .noCarry rt s

/-- `jpz rT` (R195). -/
def execJpz (rt : Reg) (s : State) : Host.Outcome State Fault Refusal := jumpIf .zero rt s

/-- `jpnz rT` (R196). -/
def execJpnz (rt : Reg) (s : State) : Host.Outcome State Fault Refusal := jumpIf .notZero rt s

/-- `jps rT` (R197). -/
def execJps (rt : Reg) (s : State) : Host.Outcome State Fault Refusal := jumpIf .sign rt s

/-- `jpns rT` (R198). -/
def execJpns (rt : Reg) (s : State) : Host.Outcome State Fault Refusal := jumpIf .notSign rt s

/-- `jpo rT` (R199). -/
def execJpo (rt : Reg) (s : State) : Host.Outcome State Fault Refusal := jumpIf .overflow rt s

/-- `jpno rT` (R200). -/
def execJpno (rt : Reg) (s : State) : Host.Outcome State Fault Refusal := jumpIf .noOverflow rt s

end Sys2Proof.Machine
end

