-- ==== Sys2Proof/Machine/LoadStore.lean ====
section
/-! DEFINITION. `ld` and `st` (42_load_store.md). -/

namespace Sys2Proof.Machine

/-- `ld rD, (rA)` (R180): the address is read before the register is written. -/
def execLd (rd ra : Reg) (s : State) : Host.Outcome State Fault Refusal :=
  writeResult rd (memRead s.mem (dataAddress s ra)) s

/-- `st rA, (rV)` (R183, R184): the first operand is the address, the second the value. -/
def execSt (ra rv : Reg) (s : State) : Host.Outcome State Fault Refusal :=
  finish .next { s with mem := memWrite s.mem (dataAddress s ra) (s.reg rv) }

end Sys2Proof.Machine
end

