-- ==== Sys2Proof/Machine/Dispatch.lean ====
section
/-! DEFINITION. One arm per instruction, each one call of its meaning. -/

namespace Sys2Proof.Machine

/-- Execute one instruction, the pc update included (40_execution_cycle.md R152, after decoding). -/
def exec (i : Instr) (s : State) : Host.Outcome State Fault Refusal :=
  match i with
  | .halt => Sys2Proof.Machine.execHalt s
  | .li rd imm8 => Sys2Proof.Machine.execLi rd imm8 s
  | .ld rd ra => Sys2Proof.Machine.execLd rd ra s
  | .st ra rv => Sys2Proof.Machine.execSt ra rv s
  | .jp rt => Sys2Proof.Machine.execJp rt s
  | .jpc rt => Sys2Proof.Machine.execJpc rt s
  | .jpnc rt => Sys2Proof.Machine.execJpnc rt s
  | .jpz rt => Sys2Proof.Machine.execJpz rt s
  | .jpnz rt => Sys2Proof.Machine.execJpnz rt s
  | .jps rt => Sys2Proof.Machine.execJps rt s
  | .jpns rt => Sys2Proof.Machine.execJpns rt s
  | .jpo rt => Sys2Proof.Machine.execJpo rt s
  | .jpno rt => Sys2Proof.Machine.execJpno rt s
  | .nop dst src => Sys2Proof.Machine.execNop dst src s
  | .or dst src => Sys2Proof.Machine.execOr dst src s
  | .and dst src => Sys2Proof.Machine.execAnd dst src s
  | .xor dst src => Sys2Proof.Machine.execXor dst src s
  | .add dst src => Sys2Proof.Machine.execAdd dst src s
  | .sub dst src => Sys2Proof.Machine.execSub dst src s
  | .shl dst src => Sys2Proof.Machine.execShl dst src s
  | .shr dst src => Sys2Proof.Machine.execShr dst src s
  | .ashr dst src => Sys2Proof.Machine.execAshr dst src s
  | .not dst src => Sys2Proof.Machine.execNot dst src s
  | .neg dst src => Sys2Proof.Machine.execNeg dst src s

end Sys2Proof.Machine
end

