-- ==== Sys2Proof/Machine/Cycle.lean ====
section
/-! DEFINITION. The execution cycle (40_execution_cycle.md): fetch, decode, execute. -/

namespace Sys2Proof.Machine

/-- A step in RUNNING (R152): both faults are entered before the instruction executes (60_exceptions.md R251, R255). -/
def runningStep (s : State) : Host.Outcome State Fault Refusal :=
  match s.iFetch s.pc with
  | none => .next (s.raise .fetchOutOfRange none)
  | some w =>
    match decode w with
    | .error _ => .next (s.raise .illegalInstruction (some w))
    | .ok i => exec i s

/-- A step exists only in RUNNING (R151). What is answered in HALTED and FAULTED: DESIGN CHOICE, log 3. -/
def engineStep (s : State) : Host.Outcome State Fault Refusal :=
  match s.run with
  | .running => runningStep s
  | .halted => .fault .haltedHasNoStep
  | .faulted => .fault .faultedHasNoStep

/-- An instruction memory with a word at one address, grown with zero words where it is shorter (log 19). -/
def imemWithWord (imem : List Word) (a : Nat) (w : Word) : List Word :=
  (imem ++ List.replicate (a + 1 - imem.length) 0#16).set a w

end Sys2Proof.Machine
end

