-- ==== Sys2Proof/Machine/Step.lean ====
section
/-! DEFINITION. The step of the engine, and where the host's checks place an instruction. -/

namespace Sys2Proof.Machine

/-- One step of the engine (40_execution_cycle.md R150 to R152). -/
def step (s : State) : Host.Outcome State Fault Refusal := engineStep s

/-- `s` with one word at the address the pc holds and the engine RUNNING with no fault: what the host's load and reset
would have set up for the next fetch (70_reset_and_hazards.md R282, R284). DESIGN CHOICE, log 19. -/
def State.withFetchWord (s : State) (nbits w : Nat) : State :=
  { s with
    imem := imemWithWord s.imem s.pc.toNat (BitVec.ofNat 16 (w % 2 ^ nbits))
    run := .running
    fault := none }

end Sys2Proof.Machine
end

