-- ==== Sys2Proof/Machine/Boundary.lean ====
section
/-! DEFINITION. What the host does to the engine between steps (70_reset_and_hazards.md R280 to R284, R290). Observing is
reading the fields of `State`: it changes nothing. UNVERIFIED, log 18: the spec's decisions D26 and D32. -/

namespace Sys2Proof.Machine

/-- Load an image, only while the engine is not running and only one that fits the instruction memory
(R284; 00_scope.md R8, 92_eei_decisions.md D2). -/
def hostLoad (img : List Word) (s : State) : Option State :=
  if s.run ≠ .running ∧ imageOk img then some { s with imem := img } else none

/-- Reset, from any run state: every item at its reset value, the instruction memory kept (R280, R281). -/
def hostReset (s : State) : State := { State.reset with imem := s.imem }

/-- Let the engine step, at most `maxSteps` times (R284; `MAX_STEPS`, 00_scope.md R8): the state in which the engine
stopped, or in which the host stopped it, which is then still RUNNING and is no end of the run (40_execution_cycle.md R161). -/
def runSteps (maxSteps : Nat) (s : State) : State :=
  match maxSteps with
  | 0 => s
  | n + 1 =>
    match step s with
    | .next t => runSteps n t
    | .fault _ => s
    | .refused _ => s

end Sys2Proof.Machine
end

