-- ==== Sys2Proof/Machine/Assembler.lean ====
section
/-! DEFINITION. The assembler: text to instructions and words (30_encoding.md R120 to R135, R141). It runs before the
engine and touches no state of it (60_exceptions.md R258). -/

namespace Sys2Proof.Machine

/-! ### Errors (R135) -/

/-- The kinds of assembler error (30_encoding.md R135; 90_conflicts.md C5). -/
inductive AsmErrorKind where
  /-- malformed token or number, wrong operand count -/
  | parseError
  /-- register index or immediate outside its bit width -/
  | rangeError
  /-- unresolved label -/
  | labelError
  /-- mnemonic or conditional-jump suffix not recognised -/
  | unknownInstruction
  /-- nothing remains on an executable line; internal to the parser -/
  | emptyLine
deriving DecidableEq, Repr

/-- An error and the line it stands on, counted from 1 (log 22). -/
structure AsmError where
  kind : AsmErrorKind
  line : Nat
deriving DecidableEq, Repr

/-! ### Lines (R120) -/

/-- White space: space, tab, carriage return, line feed. DESIGN CHOICE, log 21. -/
def isSpace (c : Char) : Bool := c == ' ' || c == '\t' || c == '\r' || c == '\n'

/-- Remove leading and trailing white space (30_encoding.md R120). -/
def trim (t : Text) : Text := ((t.dropWhile isSpace).reverse.dropWhile isSpace).reverse

/-- The lines of a text, ended by line feeds (log 21). -/
def splitLines : Text → List Text
  | [] => [[]]
  | c :: t =>
    if c = '\n' then [] :: splitLines t
    else
      match splitLines t with
      | [] => [[c]]
      | l :: ls => (c :: l) :: ls

/-- What a line is (30_encoding.md R120). -/
inductive LineKind where
  | blank
  | comment
  | label (name : Text)
  | executable (text : Text)
deriving DecidableEq, Repr

/-- The kind of a line, from its trimmed text (30_encoding.md R120). -/
def classify (line : Text) : LineKind :=
  match trim line with
  | [] => .blank
  | ';' :: _ => .comment
  | ':' :: name => .label (':' :: name)
  | t => .executable t

/-- Whether a line holds an instruction (00_scope.md R14). -/
def isExecutable (line : Text) : Bool :=
  match classify line with
  | .executable _ => true
  | _ => false

/-- Put a finished token, kept reversed, before the later ones; empty tokens are discarded (30_encoding.md R121). -/
def emitToken (cur : Text) (rest : List Text) : List Text :=
  match cur with
  | [] => rest
  | _ => cur.reverse :: rest

/-- The tokens of a text, cut at every separator; `cur` is the token being read, reversed. -/
def tokensFrom (sep : Char → Bool) (cur : Text) : Text → List Text
  | [] => emitToken cur []
  | c :: t => if sep c then emitToken cur (tokensFrom sep [] t) else tokensFrom sep (c :: cur) t

/-- The tokens of an executable line: cut at white space and at commas (30_encoding.md R121). UNVERIFIED, log 20. -/
def tokens (t : Text) : List Text := tokensFrom (fun c => isSpace c || c == ',') [] t

/-! ### Numbers and registers (R124 to R127) -/

/-- The value of a digit in a radix, hex digits in either case (30_encoding.md R125). -/
def digitValue (radix : Nat) (c : Char) : Option Nat :=
  let n := c.toNat
  let v :=
    if 48 ≤ n ∧ n ≤ 57 then n - 48
    else if 97 ≤ n ∧ n ≤ 102 then n - 87
    else if 65 ≤ n ∧ n ≤ 70 then n - 55
    else radix
  if v < radix then some v else none

/-- Read digits after the value `acc` of those before them. -/
def digitsFrom (radix acc : Nat) : Text → Option Nat
  | [] => some acc
  | c :: t =>
    match digitValue radix c with
    | none => none
    | some d => digitsFrom radix (acc * radix + d) t

/-- One or more digits of a radix (30_encoding.md R124, R125). -/
def parseDigits (radix : Nat) (t : Text) : Option Nat :=
  match t with
  | [] => none
  | _ => digitsFrom radix 0 t

/-- A numeric literal: decimal, `0x`, `0b` or `0o` (30_encoding.md R125). -/
def parseNumber (t : Text) : Option Nat :=
  match t with
  | '0' :: 'x' :: d => parseDigits 16 d
  | '0' :: 'b' :: d => parseDigits 2 d
  | '0' :: 'o' :: d => parseDigits 8 d
  | d => parseDigits 10 d

/-- Remove one trailing comma if present (30_encoding.md R124). -/
def stripComma (t : Text) : Text :=
  match t.reverse with
  | ',' :: r => r.reverse
  | _ => t

/-- Remove one surrounding pair of parentheses if present (30_encoding.md R124). -/
def stripParens (t : Text) : Text :=
  match t with
  | '(' :: rest =>
    match rest.reverse with
    | ')' :: r => r.reverse
    | _ => t
  | _ => t

/-- Remove one leading `r` if present (30_encoding.md R124). -/
def stripLetter (t : Text) : Text :=
  match t with
  | 'r' :: rest => rest
  | _ => t

/-- A register operand (30_encoding.md R124). UNVERIFIED, log 20. -/
def registerOperand (tok : Text) : Except AsmErrorKind Reg :=
  match parseDigits 10 (stripLetter (stripParens (stripComma tok))) with
  | none => .error .parseError
  | some n => if h : n < 16 then .ok ⟨n, h⟩ else .error .rangeError

/-- A number as an immediate: 0 to 255 (30_encoding.md R126, R127). -/
def immediateOfNat (n : Nat) : Except AsmErrorKind (BitVec 8) :=
  if immediateOk n then .ok (BitVec.ofNat 8 n) else .error .rangeError

/-! ### Labels (R130 to R133) -/

/-- The address of a label: the executable lines counted before the first line whose trimmed text is the token
(30_encoding.md R130, `count` starting from `count`). -/
def resolveFrom (tok : Text) (count : Nat) : List Text → Option Nat
  | [] => none
  | l :: ls =>
    if trim l = tok then some count
    else resolveFrom tok (if isExecutable l then count + 1 else count) ls

/-- The address of a label in a program (30_encoding.md R130). -/
def resolveLabel (lines : List Text) (tok : Text) : Option Nat := resolveFrom tok 0 lines

/-- The numbers, from `n`, of the lines whose trimmed text is the token. -/
def declarationLines (tok : Text) (n : Nat) : List Text → List Nat
  | [] => []
  | l :: ls => if trim l = tok then n :: declarationLines tok (n + 1) ls else declarationLines tok (n + 1) ls

/-- The later declarations of a label, reported as advisory duplicates and no error (30_encoding.md R132), as line numbers
counted from 1: DESIGN CHOICE, log 22, for R132 says not how a duplicate is named. -/
def advisoryDuplicates (lines : List Text) (tok : Text) : List Nat := (declarationLines tok 1 lines).drop 1

/-- The immediate operand of `li`: a literal or a label (30_encoding.md R125 to R127, R133). UNVERIFIED for a label
address above 255, log 16. -/
def immediateOperand (lines : List Text) (tok : Text) : Except AsmErrorKind (BitVec 8) :=
  match tok with
  | ':' :: _ =>
    match resolveLabel lines tok with
    | none => .error .labelError
    | some a => immediateOfNat a
  | _ =>
    match parseNumber tok with
    | none => .error .parseError
    | some n => immediateOfNat n

/-! ### Instructions (R122, R123, R128) -/

/-- The operands an instruction takes (30_encoding.md R123). -/
inductive OperandForm where
  | noOperand (i : Instr)
  | registerImmediate (mk : Reg → BitVec 8 → Instr)
  | oneRegister (mk : Reg → Instr)
  | twoRegisters (mk : Reg → Reg → Instr)

/-- The mnemonics and their operands (30_encoding.md R122, R123). UNVERIFIED for five spellings, log 7. -/
def mnemonicTable : List (Text × OperandForm) :=
  [("halt".toList, .noOperand .halt), ("li".toList, .registerImmediate .li),
   ("ld".toList, .twoRegisters .ld), ("st".toList, .twoRegisters .st), ("jp".toList, .oneRegister .jp),
   ("jpc".toList, .oneRegister .jpc), ("jpnc".toList, .oneRegister .jpnc),
   ("jpz".toList, .oneRegister .jpz), ("jpnz".toList, .oneRegister .jpnz),
   ("jps".toList, .oneRegister .jps), ("jpns".toList, .oneRegister .jpns),
   ("jpo".toList, .oneRegister .jpo), ("jpno".toList, .oneRegister .jpno),
   ("nop".toList, .twoRegisters .nop), ("or".toList, .twoRegisters .or), ("and".toList, .twoRegisters .and),
   ("xor".toList, .twoRegisters .xor), ("add".toList, .twoRegisters .add), ("sub".toList, .twoRegisters .sub),
   ("shl".toList, .twoRegisters .shl), ("shr".toList, .twoRegisters .shr), ("ashr".toList, .twoRegisters .ashr),
   ("not".toList, .twoRegisters .not), ("neg".toList, .twoRegisters .neg)]

/-- The operands of an instruction from their tokens: the count first, then left to right (30_encoding.md R123, R128; log 22). -/
def assembleOperands (lines : List Text) (form : OperandForm) (ops : List Text) : Except AsmErrorKind Instr :=
  match form, ops with
  | .noOperand i, [] => .ok i
  | .registerImmediate mk, [r, v] =>
    match registerOperand r with
    | .error e => .error e
    | .ok rd =>
      match immediateOperand lines v with
      | .error e => .error e
      | .ok imm8 => .ok (mk rd imm8)
  | .oneRegister mk, [r] =>
    match registerOperand r with
    | .error e => .error e
    | .ok rt => .ok (mk rt)
  | .twoRegisters mk, [r, q] =>
    match registerOperand r with
    | .error e => .error e
    | .ok r1 =>
      match registerOperand q with
      | .error e => .error e
      | .ok r2 => .ok (mk r1 r2)
  | _, _ => .error .parseError

/-- One instruction from the tokens of its line, in a program whose lines are `lines` (30_encoding.md R121 to R129). -/
def assembleTokens (lines : List Text) (toks : List Text) : Except AsmErrorKind Instr :=
  match toks with
  | [] => .error .emptyLine
  | m :: ops =>
    match mnemonicTable.lookup m with
    | none => .error .unknownInstruction
    | some form => assembleOperands lines form ops

/-! ### Programs (R134, R141) -/

/-- The instructions of the lines from line number `n` on; the first line with an error aborts (30_encoding.md R134). -/
def assembleFrom (lines : List Text) (n : Nat) : List Text → Except AsmError (List Instr)
  | [] => .ok []
  | l :: ls =>
    match classify l with
    | .executable t =>
      match assembleTokens lines (tokens t) with
      | .error k => .error { kind := k, line := n }
      | .ok i =>
        match assembleFrom lines (n + 1) ls with
        | .error e => .error e
        | .ok is => .ok (i :: is)
    | _ => assembleFrom lines (n + 1) ls

/-- The instructions of a program, in program order (30_encoding.md R129, R134, R141). -/
def assembleInstrs (lines : List Text) : Except AsmError (List Instr) := assembleFrom lines 1 lines

/-- The image of a program: word `n` encodes executable line `n` (30_encoding.md R141). -/
def assemble (program : Text) : Except AsmError (List Word) :=
  match assembleInstrs (splitLines program) with
  | .error e => .error e
  | .ok is => .ok (is.map encode)

end Sys2Proof.Machine
end

