-- ==== Sys2Proof/Machine/Image.lean ====
section
/-! DEFINITION. The text of an assembled image (30_encoding.md R140). UNVERIFIED, log 20; the reader's freedoms: log 23. -/

namespace Sys2Proof.Machine

/-- The header line of an image. -/
def imageHeader : Text := "v2.0 raw".toList

/-- A hex digit in lower case. -/
def hexDigit (n : Nat) : Char := if n < 10 then Char.ofNat (48 + n) else Char.ofNat (87 + n)

/-- A word as four hex digits, most significant first (20_memory.md R71). -/
def renderWord (w : Word) : Text :=
  [hexDigit (w.toNat / 4096), hexDigit (w.toNat / 256 % 16), hexDigit (w.toNat / 16 % 16), hexDigit (w.toNat % 16)]

/-- The words of an image from column `k` of a line on: one space between words, eight words to a line, a line feed
after each line. -/
def renderWords (k : Nat) : List Word → Text
  | [] => []
  | [w] => renderWord w ++ ['\n']
  | w :: ws =>
    if k = 7 then renderWord w ++ '\n' :: renderWords 0 ws
    else renderWord w ++ ' ' :: renderWords (k + 1) ws

/-- The text of an image (30_encoding.md R140). -/
def renderImage (ws : List Word) : Text := imageHeader ++ '\n' :: renderWords 0 ws

/-- A word from exactly four hex digits, in either case (30_encoding.md R140); exactly four is a DESIGN CHOICE, log 23. -/
def readHexWord (t : Text) : Option Word :=
  if t.length = 4 then (parseDigits 16 t).map (BitVec.ofNat 16) else none

/-- Read every token as a word; none if one of them is not. -/
def readHexWords : List Text → Option (List Word)
  | [] => some []
  | t :: ts =>
    match readHexWord t, readHexWords ts with
    | some w, some ws => some (w :: ws)
    | _, _ => none

/-- Read the text of an image (30_encoding.md R140): the header line, then the words. DESIGN CHOICE, log 23: white space
around the header is trimmed before it is compared, as is white space around and between the words, and a line may hold
any number of words; R140 gives the header as `v2.0 raw` and says nothing of space around it. -/
def readImage (t : Text) : Option (List Word) :=
  match splitLines t with
  | [] => none
  | h :: body => if trim h = imageHeader then readHexWords (body.flatMap (tokensFrom isSpace [])) else none

end Sys2Proof.Machine
end

