-- ==== Sys2Proof/Safety.lean ====
section
/-! DEFINITION. What counts as a good end of a run, the invariant of the engine's state, and the terms in which the
statements say what an instruction changes. -/

namespace Sys2Proof.Machine

/-! ### Runs -/

/-- A run has ended normally exactly in HALTED (70_reset_and_hazards.md R290). -/
abbrev State.endedNormally (s : State) : Prop := s.run = .halted

/-- A run has gone wrong in FAULTED (60_exceptions.md R252, 70_reset_and_hazards.md R290). -/
abbrev State.wentWrong (s : State) : Prop := s.run = .faulted

/-- The second state is reached from the first by steps of the engine. -/
inductive Reaches : State → State → Prop where
  | refl (s : State) : Reaches s s
  | tail {s t u : State} (h : Reaches s t) (hs : step t = .next u) : Reaches s u

/-! ### The invariant -/

/-- At most one of `Z`, `S`, `V` is set (95_test_vectors.md, its conventions). -/
abbrev Flags.atMostOne (f : Flags) : Prop := (f.z && f.s) = false ∧ (f.z && f.v) = false ∧ (f.s && f.v) = false

/-- What every step keeps. -/
structure State.Inv (s : State) : Prop where
  /-- the data memory is in canonical form -/
  memory : memWf s.mem = true
  /-- the instruction memory has at most 65536 words (00_scope.md R8) -/
  image : s.imem.length ≤ Config.maxProgLen
  /-- the carry flag is clear (10_state.md R43) -/
  carry : s.flags.c = false
  /-- at most one of the other flags is set -/
  flags : s.flags.atMostOne
  /-- the fault record is present exactly in FAULTED (10_state.md R48) -/
  record : s.fault.isSome = true ↔ s.run = .faulted

/-! ### What an instruction changes -/

/-- The destination register of an instruction (10_state.md R33); the pc advance and the jumps write `x[15]` besides. -/
def destination (i : Instr) : Option Reg :=
  match i with
  | .halt | .st _ _ | .jp _ => none
  | .jpc _ | .jpnc _ | .jpz _ | .jpnz _ | .jps _ | .jpns _ | .jpo _ | .jpno _ => none
  | .li rd _ => some rd
  | .ld rd _ => some rd
  | .nop d _ | .or d _ | .and d _ | .xor d _ | .add d _ | .sub d _ => some d
  | .shl d _ | .shr d _ | .ashr d _ | .not d _ | .neg d _ => some d

/-- The data address an instruction stores to, as its meaning computes it (42_load_store.md R181, R183). -/
def storeAddress (i : Instr) (s : State) : Option Word :=
  match i with
  | .st ra _ => some (dataAddress s ra)
  | .halt | .li _ _ | .ld _ _ | .jp _ => none
  | .jpc _ | .jpnc _ | .jpz _ | .jpnz _ | .jps _ | .jpns _ | .jpo _ | .jpno _ => none
  | .nop _ _ | .or _ _ | .and _ _ | .xor _ _ | .add _ _ | .sub _ _ => none
  | .shl _ _ | .shr _ _ | .ashr _ _ | .not _ _ | .neg _ _ => none

/-- Whether an instruction is a jump that is taken in a state (40_execution_cycle.md R157). -/
def jumpTaken (i : Instr) (s : State) : Bool :=
  match i with
  | .jp _ => true
  | .jpc _ => s.flags.c
  | .jpnc _ => !s.flags.c
  | .jpz _ => s.flags.z
  | .jpnz _ => !s.flags.z
  | .jps _ => s.flags.s
  | .jpns _ => !s.flags.s
  | .jpo _ => s.flags.v
  | .jpno _ => !s.flags.v
  | .halt | .li _ _ | .ld _ _ | .st _ _ => false
  | .nop _ _ | .or _ _ | .and _ _ | .xor _ _ | .add _ _ | .sub _ _ => false
  | .shl _ _ | .shr _ _ | .ashr _ _ | .not _ _ | .neg _ _ => false

/-- Whether an instruction is one of the eight conditional jumps, the only readers of the flags (10_state.md R42). -/
def readsFlags (i : Instr) : Bool :=
  match i with
  | .jpc _ | .jpnc _ | .jpz _ | .jpnz _ | .jps _ | .jpns _ | .jpo _ | .jpno _ => true
  | .halt | .li _ _ | .ld _ _ | .st _ _ | .jp _ => false
  | .nop _ _ | .or _ _ | .and _ _ | .xor _ _ | .add _ _ | .sub _ _ => false
  | .shl _ _ | .shr _ _ | .ashr _ _ | .not _ _ | .neg _ _ => false

/-- Whether an instruction writes the flags (10_state.md R41). -/
def writesFlags (i : Instr) : Bool :=
  match i with
  | .nop _ _ | .or _ _ | .and _ _ | .xor _ _ | .add _ _ | .sub _ _ => true
  | .halt | .li _ _ | .ld _ _ | .st _ _ | .jp _ => false
  | .jpc _ | .jpnc _ | .jpz _ | .jpnz _ | .jps _ | .jpns _ | .jpo _ | .jpno _ => false
  | .shl _ _ | .shr _ _ | .ashr _ _ | .not _ _ | .neg _ _ => false

/-- Nothing but registers and flags differs: every byte of the data memory, the instruction memory, the run state and
the fault record are as before. -/
structure OnlyRegistersAndFlags (s t : State) : Prop where
  memory : ∀ k, readByte t.mem k = readByte s.mem k
  imem : t.imem = s.imem
  run : t.run = s.run
  fault : t.fault = s.fault

/-- The word `v` is left in register `d` and the pc is one higher, or, where `d` is the pc itself, one above the word
written (40_execution_cycle.md R155, R156). -/
structure LeavesResult (d : Reg) (v : Word) (s t : State) : Prop where
  result : d ≠ pcReg → t.reg d = v
  pc : t.pc = (if d = pcReg then v else s.pc) + 1#16

/-- What an instruction does that writes the word `v` to register `d`, leaves the flags at `f` and returns `next`: the
result and the pc as `LeavesResult` says; nothing else changes. -/
structure WritesResult (d : Reg) (v : Word) (f : Flags) (s t : State) : Prop extends LeavesResult d v s t where
  others : ∀ r, r ≠ d → r ≠ pcReg → t.reg r = s.reg r
  flags : t.flags = f
  rest : OnlyRegistersAndFlags s t

/-- What a jump to the address in `rt` does, taken or not: the pc is the target or one higher; nothing else changes. -/
structure JumpsOrFallsThrough (rt : Reg) (taken : Bool) (s t : State) : Prop where
  pc : t.pc = if taken then s.reg rt else s.pc + 1#16
  others : ∀ r, r ≠ pcReg → t.reg r = s.reg r
  flags : t.flags = s.flags
  rest : OnlyRegistersAndFlags s t

/-! ### Programs of the assembler -/

/-- The decimal digits of a register index. -/
def regDigits (r : Reg) : Text := if r.val < 10 then [Char.ofNat (48 + r.val)] else ['1', Char.ofNat (38 + r.val)]

/-- The name of a register in a program text (10_state.md R30, 30_encoding.md R124). -/
def regName (r : Reg) : Text := 'r' :: regDigits r

/-- A text in one pair of parentheses. -/
def parenthesised (t : Text) : Text := '(' :: t ++ [')']

end Sys2Proof.Machine
end

