-- ==== Sys2Proof/Certificates/Slice0/Obligations.lean ====
section
/-! DEFINITION. The statements for the provers. A docstring names the spec's text a statement formalises; where a clause
rests on one of the spec's own decisions (92_eei_decisions.md) or on a choice of the model, it names the decision and
the log entry. -/

open Sys2Proof Sys2Proof.Machine

/-! ### Encoding -/

/-- Words written out from the layouts decode to their instructions (95_test_vectors.md E1). The ALU word rests on the
spec's decision D5 (log 6), the illegal word on D4 (log 5). -/
def Obligations.WrittenOutWordsDecode : Prop :=
  decode 0b0000000000000000#16 = .ok .halt ∧
  decode 0b0001000001010001#16 = .ok (.li 1 5) ∧
  decode 0b1000000000010010#16 = .ok (.ld 1 2) ∧
  decode 0b1010000000010010#16 = .ok (.st 1 2) ∧
  decode 0b1100000000000011#16 = .ok (.jp 3) ∧
  decode 0b1111000000100011#16 = .ok (.jpz 3) ∧
  decode 0b0100010000010010#16 = .ok (.add 1 2) ∧
  decode 0b1000000100000000#16 = .error .unassigned

/-- R92, R93, R95, R96: the fields of formats Z, I, J and JC, as the decoder reads them; of format RR (R94), the two
register fields. -/
def Obligations.FormatFieldsAreDecoded : Prop :=
  ∀ (w : Word) (i : Instr), decode w = .ok i →
    match i with
    | .halt => w = 0b0000000000000000#16
    | .li rd imm8 => field w 12 4 = 0b0001#4 ∧ imm8 = field w 4 8 ∧ rd = regField w 0
    | .jp rt => field w 4 12 = 0b110000000000#12 ∧ rt = regField w 0
    | .jpc rt => field w 7 9 = 0b111100000#9 ∧ field w 4 3 = FlagCond.carry.code ∧ rt = regField w 0
    | .jpnc rt => field w 7 9 = 0b111100000#9 ∧ field w 4 3 = FlagCond.noCarry.code ∧ rt = regField w 0
    | .jpz rt => field w 7 9 = 0b111100000#9 ∧ field w 4 3 = FlagCond.zero.code ∧ rt = regField w 0
    | .jpnz rt => field w 7 9 = 0b111100000#9 ∧ field w 4 3 = FlagCond.notZero.code ∧ rt = regField w 0
    | .jps rt => field w 7 9 = 0b111100000#9 ∧ field w 4 3 = FlagCond.sign.code ∧ rt = regField w 0
    | .jpns rt => field w 7 9 = 0b111100000#9 ∧ field w 4 3 = FlagCond.notSign.code ∧ rt = regField w 0
    | .jpo rt => field w 7 9 = 0b111100000#9 ∧ field w 4 3 = FlagCond.overflow.code ∧ rt = regField w 0
    | .jpno rt => field w 7 9 = 0b111100000#9 ∧ field w 4 3 = FlagCond.noOverflow.code ∧ rt = regField w 0
    | .ld r1 r2 | .st r1 r2 | .nop r1 r2 | .or r1 r2 | .and r1 r2 | .xor r1 r2 | .add r1 r2 | .sub r1 r2
    | .shl r1 r2 | .shr r1 r2 | .ashr r1 r2 | .not r1 r2 | .neg r1 r2 => r1 = regField w 4 ∧ r2 = regField w 0

/-- 30_encoding.md section 3 (its round trip): decoding an encoded instruction gives it back, for every instruction and
every operand. The ALU tags rest on the spec's decision D5 (log 6). -/
def Obligations.DecodeOfEncode : Prop := ∀ i : Instr, decode (encode i) = .ok i

/-- 30_encoding.md section 3 (its round trip): a word that decodes is the encoding of what it decodes to. The ALU tags
rest on the spec's decision D5 (log 6). -/
def Obligations.EncodeOfDecode : Prop := ∀ (w : Word) (i : Instr), decode w = .ok i → encode i = w

/-- 30_encoding.md section 4: the unassigned words are exactly the listed ranges, by top hex digit. The ranges of top
digit 4 rest on the spec's decision D5 (log 6). -/
def Obligations.UnassignedWordsAreTheListedRanges : Prop :=
  ∀ w : Word, decode w = .error .unassigned ↔
    (0x0001 ≤ w.toNat ∧ w.toNat ≤ 0x0FFF) ∨ (0x2000 ≤ w.toNat ∧ w.toNat ≤ 0x3FFF) ∨
    (0x4B00 ≤ w.toNat ∧ w.toNat ≤ 0x7FFF) ∨ (0x8100 ≤ w.toNat ∧ w.toNat ≤ 0x9FFF) ∨
    (0xA100 ≤ w.toNat ∧ w.toNat ≤ 0xBFFF) ∨ (0xC010 ≤ w.toNat ∧ w.toNat ≤ 0xEFFF) ∨
    (0xF080 ≤ w.toNat ∧ w.toNat ≤ 0xFFFF)

/-- 30_encoding.md section 3 (the opcode map): no word matches two rows, a word that decodes matches its instruction's
row, and a word that does not decode matches none. The rows rest on the spec's decisions D5 and D6 (log 6, log 7). -/
def Obligations.OpcodeMapAgreesWithDecoder : Prop :=
  (∀ (w : Word) (r q : OpcodeRow), r ∈ opcodeMap → q ∈ opcodeMap → r.spells w = true → q.spells w = true → r = q) ∧
  (∀ (w : Word) (i : Instr), decode w = .ok i → i.row ∈ opcodeMap ∧ i.row.spells w = true) ∧
  (∀ w : Word, decode w = .error .unassigned → ∀ r ∈ opcodeMap, r.spells w = false)

/-- 30_encoding.md section 3 (the encoder as arithmetic on words). The ALU tags rest on the spec's decision D5 (log 6). -/
def Obligations.EncoderIsShiftsAndOrs : Prop :=
  ∀ (a b : Reg) (imm8 : BitVec 8),
    let x : Word := BitVec.ofNat 16 a.val
    let y : Word := BitVec.ofNat 16 b.val
    encode .halt = 0x0000#16 ∧
    encode (.li a imm8) = 0x1000#16 ||| (imm8.setWidth 16 <<< 4) ||| x ∧
    encode (.ld a b) = 0x8000#16 ||| (x <<< 4) ||| y ∧
    encode (.st a b) = 0xA000#16 ||| (x <<< 4) ||| y ∧
    encode (.jp a) = 0xC000#16 ||| x ∧
    encode (.jpc a) = 0xF000#16 ||| (0b000#16 <<< 4) ||| x ∧
    encode (.jpnc a) = 0xF000#16 ||| (0b001#16 <<< 4) ||| x ∧
    encode (.jpz a) = 0xF000#16 ||| (0b010#16 <<< 4) ||| x ∧
    encode (.jpnz a) = 0xF000#16 ||| (0b011#16 <<< 4) ||| x ∧
    encode (.jps a) = 0xF000#16 ||| (0b100#16 <<< 4) ||| x ∧
    encode (.jpns a) = 0xF000#16 ||| (0b101#16 <<< 4) ||| x ∧
    encode (.jpo a) = 0xF000#16 ||| (0b110#16 <<< 4) ||| x ∧
    encode (.jpno a) = 0xF000#16 ||| (0b111#16 <<< 4) ||| x ∧
    encode (.nop a b) = (0x40#16 <<< 8) ||| (x <<< 4) ||| y ∧
    encode (.or a b) = (0x41#16 <<< 8) ||| (x <<< 4) ||| y ∧
    encode (.and a b) = (0x42#16 <<< 8) ||| (x <<< 4) ||| y ∧
    encode (.xor a b) = (0x43#16 <<< 8) ||| (x <<< 4) ||| y ∧
    encode (.add a b) = (0x44#16 <<< 8) ||| (x <<< 4) ||| y ∧
    encode (.sub a b) = (0x45#16 <<< 8) ||| (x <<< 4) ||| y ∧
    encode (.shl a b) = (0x46#16 <<< 8) ||| (x <<< 4) ||| y ∧
    encode (.shr a b) = (0x47#16 <<< 8) ||| (x <<< 4) ||| y ∧
    encode (.ashr a b) = (0x48#16 <<< 8) ||| (x <<< 4) ||| y ∧
    encode (.not a b) = (0x49#16 <<< 8) ||| (x <<< 4) ||| y ∧
    encode (.neg a b) = (0x4A#16 <<< 8) ||| (x <<< 4) ||| y

/-- 30_encoding.md section 2 (structure of the flag-select code): bits 2..1 select the flag, bit 0 the value it must
hold (0: set, 1: clear). -/
def Obligations.FlagSelectCodeStructure : Prop :=
  ∀ (cc : FlagCond) (f : Flags),
    condHolds cc f =
      ((if cc.code.extractLsb' 1 2 = 0b00#2 then f.c
        else if cc.code.extractLsb' 1 2 = 0b01#2 then f.z
        else if cc.code.extractLsb' 1 2 = 0b10#2 then f.s
        else f.v) != cc.code.getLsbD 0)

/-! ### The execution cycle -/

/-- 40_execution_cycle.md section 1: in RUNNING, where the word at the pc decodes to an instruction, the step is the
execution of that instruction, the pc update included. -/
def Obligations.StepRunsDecodedInstruction : Prop :=
  ∀ (s : State) (w : Word) (i : Instr),
    s.run = .running → s.iFetch s.pc = some w → decode w = .ok i → step s = exec i s

/-- 40_execution_cycle.md section 3 and 60_exceptions.md section 1: a fetch at or past `PROG_LEN` enters
`FetchOutOfRange`, before any decoding. The record and the state FAULTED are the spec's decisions D3 and D16 (log 5). -/
def Obligations.FetchPastEndEntersFault : Prop :=
  ∀ s : State, s.run = .running → s.progLen ≤ s.pc.toNat →
    ∃ t, step s = .next t ∧ t.run = .faulted ∧
      t.fault = some { cause := .fetchOutOfRange, faultPc := s.pc, faultWord := none } ∧
      FaultCause.fetchOutOfRange.code = 1 ∧
      t.regs = s.regs ∧ t.flags = s.flags ∧ t.imem = s.imem ∧ ∀ k, readByte t.mem k = readByte s.mem k

/-- 30_encoding.md section 4 and 60_exceptions.md section 1: a word that is no instruction enters `IllegalInstruction`.
That it faults, the record and the state FAULTED are the spec's decisions D4 and D16 (log 5). -/
def Obligations.UnassignedWordEntersFault : Prop :=
  ∀ (s : State) (w : Word), s.run = .running → s.iFetch s.pc = some w → decode w = .error .unassigned →
    ∃ t, step s = .next t ∧ t.run = .faulted ∧
      t.fault = some { cause := .illegalInstruction, faultPc := s.pc, faultWord := some w } ∧
      FaultCause.illegalInstruction.code = 2 ∧
      t.regs = s.regs ∧ t.flags = s.flags ∧ t.imem = s.imem ∧ ∀ k, readByte t.mem k = readByte s.mem k

/-- 40_execution_cycle.md section 1 and 60_exceptions.md section 4: there is a step in RUNNING, and none in HALTED or
FAULTED, where nothing changes however long the host lets the engine step (the spec's decisions D16 and D25, log 18).
That the model answers a named fault there is the model's choice (DESIGN CHOICE, log 3). -/
def Obligations.StepsExistOnlyInRunning : Prop :=
  ∀ s : State, (s.run = .halted → step s = .fault .haltedHasNoStep) ∧
    (s.run = .faulted → step s = .fault .faultedHasNoStep) ∧
    (s.run = .running → ∃ t, step s = .next t) ∧
    (s.run ≠ .running → ∀ n, runSteps n s = s)

/-- 60_exceptions.md section 1 (fault entry): a step that ends in FAULTED changed nothing but the run state and the
record, and recorded one of the two causes with the pc and the word of the step. The representation is the spec's
decision D16 (log 5). -/
def Obligations.FaultEntryIsPrecise : Prop :=
  ∀ s t : State, step s = .next t → t.run = .faulted →
    t.regs = s.regs ∧ t.flags = s.flags ∧ t.imem = s.imem ∧ (∀ k, readByte t.mem k = readByte s.mem k) ∧
    ((s.iFetch s.pc = none ∧
        t.fault = some { cause := .fetchOutOfRange, faultPc := s.pc, faultWord := none }) ∨
     (∃ w, s.iFetch s.pc = some w ∧ decode w = .error .unassigned ∧
        t.fault = some { cause := .illegalInstruction, faultPc := s.pc, faultWord := some w }))

/-- 60_exceptions.md section 3: `halt` is the only instruction that changes the run state; the only step into HALTED runs
the word 0x0000 and changes nothing else (the spec's decision D17, log 17). -/
def Obligations.OnlyHaltHalts : Prop :=
  ∀ s t : State, step s = .next t → t.run = .halted →
    s.run = .running ∧ s.iFetch s.pc = some 0x0000#16 ∧ t = { s with run := .halted }

/-- 60_exceptions.md section 1: no instruction faults by what it computes; every instruction in every state gives a next
state, and only `halt` changes the run state. -/
def Obligations.EveryInstructionCompletes : Prop :=
  ∀ (i : Instr) (s : State), ∃ t, exec i s = .next t ∧ t.fault = s.fault ∧ t.imem = s.imem ∧
    t.run = (if i = .halt then .halted else s.run)

/-- R158, R170: `halt` is the word of sixteen zeros, written `halt` with no operand; it sets HALTED and keeps the pc, all
registers, flags and memory; no further instruction executes. -/
def Obligations.HaltStopsTheEngine : Prop :=
  encode .halt = 0b0000000000000000#16 ∧ decode 0b0000000000000000#16 = .ok .halt ∧
  (∀ lines, assembleTokens lines ["halt".toList] = .ok .halt) ∧
  ∀ s : State, ∃ t, exec .halt s = .next t ∧ t.run = .halted ∧ t.pc = s.pc ∧ t.regs = s.regs ∧ t.flags = s.flags ∧
    (∀ k, readByte t.mem k = readByte s.mem k) ∧ t.imem = s.imem ∧ t.fault = s.fault ∧
    ∀ u, step t ≠ .next u

/-- R155: after every instruction but `halt` and a taken jump the pc is one higher. The forms that write `x[15]` are in
`NonJumpWriteToPcAdvances` and in the instructions' own statements (decision D13), and so is the advance from 0xFFFF,
which wraps (decision D14). -/
def Obligations.PcAdvancesByOne : Prop :=
  ∀ (i : Instr) (s : State), i ≠ .halt → jumpTaken i s = false → destination i ≠ some pcReg → s.pc.toNat < 65535 →
    ∃ t, exec i s = .next t ∧ t.pc.toNat = s.pc.toNat + 1

/-- 40_execution_cycle.md section 3 (writing `x[15]` by an instruction that is no jump): for each of the thirteen such
instructions, `li`, `ld` and the eleven ALU operations, the advance is applied to the value written, so the next fetch is
one above it, mod 2^16. The spec's decisions D13 and D14 (log 14, log 15); shift counts as in D9 and read as in D10
(log 10, log 11). -/
def Obligations.NonJumpWriteToPcAdvances : Prop :=
  ∀ (s : State) (imm8 : BitVec 8) (r : Reg),
    (∃ t, exec (.li pcReg imm8) s = .next t ∧ t.pc.toNat = imm8.toNat + 1) ∧
    (∃ t, exec (.ld pcReg r) s = .next t ∧ t.pc = memRead s.mem (s.reg r) + 1#16) ∧
    (∃ t, exec (.nop pcReg r) s = .next t ∧ t.pc = s.reg r + 1#16) ∧
    (∃ t, exec (.or pcReg r) s = .next t ∧ t.pc = (s.pc ||| s.reg r) + 1#16) ∧
    (∃ t, exec (.and pcReg r) s = .next t ∧ t.pc = (s.pc &&& s.reg r) + 1#16) ∧
    (∃ t, exec (.xor pcReg r) s = .next t ∧ t.pc = (s.pc ^^^ s.reg r) + 1#16) ∧
    (∃ t, exec (.add pcReg r) s = .next t ∧ t.pc = s.pc + s.reg r + 1#16) ∧
    (∃ t, exec (.sub pcReg r) s = .next t ∧ t.pc = s.pc - s.reg r + 1#16) ∧
    (∃ t, exec (.shl pcReg r) s = .next t ∧ t.pc = (s.pc <<< (s.reg r).toNat) + 1#16) ∧
    (∃ t, exec (.shr pcReg r) s = .next t ∧ t.pc = (s.pc >>> (s.reg r).toNat) + 1#16) ∧
    (∃ t, exec (.ashr pcReg r) s = .next t ∧ t.pc = s.pc.sshiftRight (s.reg r).toNat + 1#16) ∧
    (∃ t, exec (.not pcReg r) s = .next t ∧ t.pc = ~~~(s.reg r) + 1#16) ∧
    (∃ t, exec (.neg pcReg r) s = .next t ∧ t.pc = ~~~(s.reg r) + 1#16 + 1#16)

/-- R157: after `jp` and after a conditional jump whose condition holds the pc is the target as set, with no increment. -/
def Obligations.TakenJumpSetsPc : Prop :=
  ∀ (rt : Reg) (s : State),
    (∃ t, exec (.jp rt) s = .next t ∧ t.pc = s.reg rt) ∧
    (s.flags.c = true → ∃ t, exec (.jpc rt) s = .next t ∧ t.pc = s.reg rt) ∧
    (s.flags.c = false → ∃ t, exec (.jpnc rt) s = .next t ∧ t.pc = s.reg rt) ∧
    (s.flags.z = true → ∃ t, exec (.jpz rt) s = .next t ∧ t.pc = s.reg rt) ∧
    (s.flags.z = false → ∃ t, exec (.jpnz rt) s = .next t ∧ t.pc = s.reg rt) ∧
    (s.flags.s = true → ∃ t, exec (.jps rt) s = .next t ∧ t.pc = s.reg rt) ∧
    (s.flags.s = false → ∃ t, exec (.jpns rt) s = .next t ∧ t.pc = s.reg rt) ∧
    (s.flags.v = true → ∃ t, exec (.jpo rt) s = .next t ∧ t.pc = s.reg rt) ∧
    (s.flags.v = false → ∃ t, exec (.jpno rt) s = .next t ∧ t.pc = s.reg rt)

/-- 20_memory.md section 3: no step writes the instruction memory. -/
def Obligations.StepKeepsInstructionMemory : Prop :=
  ∀ s t : State, step s = .next t → t.imem = s.imem ∧ t.progLen = s.progLen

/-! ### What each instruction does -/

/-- 41_halt_li.md, `li`: the zero-extended immediate, every register form. No flag written is the spec's decision D12
(log 13); the form `rd = 15` is decision D13 (log 14). -/
def Obligations.LiLoadsImmediate : Prop :=
  ∀ (rd : Reg) (imm8 : BitVec 8) (s : State),
    ∃ t, exec (.li rd imm8) s = .next t ∧ WritesResult rd (0x00#8 ++ imm8) s.flags s t

/-- R97: the immediate is bits 11..4, unsigned and zero-extended; a written value that does not fit is `RangeError`. -/
def Obligations.LiImmediateIsZeroExtended : Prop :=
  (∀ (w : Word) (s : State), field w 12 4 = 0b0001#4 →
    ∃ i t, decode w = .ok i ∧ exec i s = .next t ∧
      (regField w 0 ≠ pcReg → (t.reg (regField w 0)).toNat = w.toNat / 16 % 256)) ∧
  (∀ (lines : List Text) (r v : Text) (rd : Reg) (n : Nat), registerOperand r = .ok rd → parseNumber v = some n →
    255 < n → assembleTokens lines ["li".toList, r, v] = .error .rangeError)

/-- 42_load_store.md, `ld`: the word at the address, read before the register is written, every register form. No flag
written is the spec's decision D12 (log 13); the form `rd = 15` is decision D13 (log 14). -/
def Obligations.LdLoadsWord : Prop :=
  ∀ (rd ra : Reg) (s : State),
    ∃ t, exec (.ld rd ra) s = .next t ∧ WritesResult rd (memRead s.mem (dataAddress s ra)) s.flags s t

/-- 42_load_store.md, `st`: the word at the address in the FIRST operand becomes the second operand, no other byte of
memory changes, no register but the pc changes. No flag written is the spec's decision D12 (log 13). The two bytes of a
word are the model's cells (DESIGN CHOICE, log 1). -/
def Obligations.StStoresWord : Prop :=
  ∀ (ra rv : Reg) (s : State),
    ∃ t, exec (.st ra rv) s = .next t ∧ t.pc = s.pc + 1#16 ∧ (∀ r, r ≠ pcReg → t.reg r = s.reg r) ∧
      t.flags = s.flags ∧ t.imem = s.imem ∧ t.run = s.run ∧ t.fault = s.fault ∧
      (∀ k, k ≠ highCell (dataAddress s ra) → k ≠ lowCell (dataAddress s ra) → readByte t.mem k = readByte s.mem k) ∧
      (memWf s.mem = true → memRead t.mem (dataAddress s ra) = s.reg rv)

/-- R184: in `st rA, (rV)` the parenthesised register is the value, the other the address. -/
def Obligations.StParenthesesMarkTheValue : Prop :=
  ∀ (ra rv : Reg) (lines : List Text) (s : State), memWf s.mem = true →
    ∃ i t, assembleTokens lines ["st".toList, regName ra, parenthesised (regName rv)] = .ok i ∧
      exec i s = .next t ∧ memRead t.mem (s.reg ra) = s.reg rv ∧
      ∀ a, a ≠ s.reg ra → memRead t.mem a = memRead s.mem a

/-- R181: the effective address of `ld` and `st` is the whole value of one register, which they do not modify. -/
def Obligations.EffectiveAddressIsWholeRegister : Prop :=
  (∀ (rd ra : Reg) (s : State), rd ≠ pcReg →
    ∃ t, exec (.ld rd ra) s = .next t ∧ t.reg rd = memRead s.mem (s.reg ra) ∧
      (ra ≠ rd → ra ≠ pcReg → t.reg ra = s.reg ra)) ∧
  (∀ (ra rv : Reg) (s : State), memWf s.mem = true →
    ∃ t, exec (.st ra rv) s = .next t ∧ memRead t.mem (s.reg ra) = s.reg rv ∧
      (∀ a, a ≠ s.reg ra → memRead t.mem a = memRead s.mem a) ∧ (ra ≠ pcReg → t.reg ra = s.reg ra))

/-- 43_jumps.md: `jp` jumps, each conditional jump jumps exactly where its flag holds its value and else falls through;
nothing but the pc changes. No flag written is the spec's decision D12 (log 13), five spellings are D6 (log 7). -/
def Obligations.JumpsDoAsTheirFlagSays : Prop :=
  ∀ (rt : Reg) (s : State),
    (∃ t, exec (.jp rt) s = .next t ∧ JumpsOrFallsThrough rt true s t) ∧
    (∃ t, exec (.jpc rt) s = .next t ∧ JumpsOrFallsThrough rt s.flags.c s t) ∧
    (∃ t, exec (.jpnc rt) s = .next t ∧ JumpsOrFallsThrough rt (!s.flags.c) s t) ∧
    (∃ t, exec (.jpz rt) s = .next t ∧ JumpsOrFallsThrough rt s.flags.z s t) ∧
    (∃ t, exec (.jpnz rt) s = .next t ∧ JumpsOrFallsThrough rt (!s.flags.z) s t) ∧
    (∃ t, exec (.jps rt) s = .next t ∧ JumpsOrFallsThrough rt s.flags.s s t) ∧
    (∃ t, exec (.jpns rt) s = .next t ∧ JumpsOrFallsThrough rt (!s.flags.s) s t) ∧
    (∃ t, exec (.jpo rt) s = .next t ∧ JumpsOrFallsThrough rt s.flags.v s t) ∧
    (∃ t, exec (.jpno rt) s = .next t ∧ JumpsOrFallsThrough rt (!s.flags.v) s t)

/-- R195: `jpz rT` is the word 0xF020 with the register in its low four bits, code 010; it jumps iff `Z = 1`, else the
pc is one higher. -/
def Obligations.JpzJumpsIffZero : Prop :=
  ∀ (rt : Reg) (s : State),
    (encode (.jpz rt)).toNat = 0xF020 + rt.val ∧ field (encode (.jpz rt)) 4 3 = 0b010#3 ∧
    (s.flags.z = true → ∃ t, exec (.jpz rt) s = .next t ∧ t.pc = s.reg rt) ∧
    (s.flags.z = false → s.pc.toNat < 65535 → ∃ t, exec (.jpz rt) s = .next t ∧ t.pc.toNat = s.pc.toNat + 1)

/-- 43_jumps.md, `jpc` and `jpnc`: in every state a run reaches, `jpc` only advances the pc and `jpnc` does as `jp`. -/
def Obligations.CarryJumpsAreSettled : Prop :=
  ∀ (s₀ s : State) (rt : Reg), Reaches (hostReset s₀) s →
    exec (.jpc rt) s = .next s.advancePc ∧ exec (.jpnc rt) s = exec (.jp rt) s

/-- 44_alu.md section 2, `nop`: the copy, with all four flags cleared. The form `dst = 15` is the spec's decision D13
(log 14). -/
def Obligations.NopCopiesAndClearsFlags : Prop :=
  ∀ (d r : Reg) (s : State),
    ∃ t, exec (.nop d r) s = .next t ∧
      WritesResult d (s.reg r) { c := false, z := false, s := false, v := false } s t

/-- 44_alu.md section 2, `or`, `and`, `xor`: the bitwise result; `Z` set iff every bit of it is 0; the others cleared. The
form `dst = 15` is the spec's decision D13 (log 14). -/
def Obligations.LogicOperationsWriteResultAndZero : Prop :=
  ∀ (d r : Reg) (s : State),
    (∃ t, exec (.or d r) s = .next t ∧
      WritesResult d (s.reg d ||| s.reg r)
        { c := false, z := decide ((s.reg d ||| s.reg r).toNat = 0), s := false, v := false } s t) ∧
    (∃ t, exec (.and d r) s = .next t ∧
      WritesResult d (s.reg d &&& s.reg r)
        { c := false, z := decide ((s.reg d &&& s.reg r).toNat = 0), s := false, v := false } s t) ∧
    (∃ t, exec (.xor d r) s = .next t ∧
      WritesResult d (s.reg d ^^^ s.reg r)
        { c := false, z := decide (s.reg d = s.reg r), s := false, v := false } s t)

/-- 44_alu.md section 3, `add`: the sum mod 2^16; `Z` from it; `V` iff the signed sum is above 32767, exactly where both
operands have bit 15 clear and the result has it set; `C` and `S` cleared. `V` read so is the spec's decision D7 (log 8);
the form `dst = 15` is decision D13 (log 14). -/
def Obligations.AddWritesSumAndFlags : Prop :=
  ∀ (d r : Reg) (s : State),
    (∃ t, exec (.add d r) s = .next t ∧
      WritesResult d (BitVec.ofNat 16 ((s.reg d).toNat + (s.reg r).toNat))
        { c := false, z := decide (((s.reg d).toNat + (s.reg r).toNat) % 65536 = 0), s := false,
          v := !(s.reg d).msb && !(s.reg r).msb && (s.reg d + s.reg r).msb } s t) ∧
    (((s.reg d).toInt + (s.reg r).toInt > 32767) ↔
      ((s.reg d).msb = false ∧ (s.reg r).msb = false ∧ (s.reg d + s.reg r).msb = true))

/-- 44_alu.md section 3, `sub`: the difference mod 2^16; `Z` iff the operands are equal; `S` is bit 15 of the result; `C`
and `V` cleared. `S` read so is the spec's decision D8 (log 9); the form `dst = 15` is decision D13 (log 14). -/
def Obligations.SubWritesDifferenceAndFlags : Prop :=
  ∀ (d r : Reg) (s : State),
    ∃ t, exec (.sub d r) s = .next t ∧
      WritesResult d (BitVec.ofInt 16 ((s.reg d).toNat - (s.reg r).toNat : Int))
        { c := false, z := decide (s.reg d = s.reg r), s := (s.reg d - s.reg r).getLsbD 15, v := false } s t

/-- R221: `add` writes 0 to the carry flag, also where the unsigned sum is above 0xFFFF. -/
def Obligations.AddClearsCarry : Prop :=
  ∀ (d r : Reg) (s : State), ∃ t, exec (.add d r) s = .next t ∧ t.flags.c = false

/-- 44_alu.md section 4: the shifts equal the one-bit step repeated as often as the count says, for every count, read once
before the destination is written. The count unsigned and read once are the spec's decisions D9 and D10 (log 10, log 11);
the form `dst = 15` is decision D13 (log 14). -/
def Obligations.ShiftsEqualRepeatedSteps : Prop :=
  ∀ (d r : Reg) (s : State),
    (∃ t, exec (.shl d r) s = .next t ∧
      WritesResult d (repeatTimes (s.reg r).toNat shlOnce (s.reg d)) s.flags s t) ∧
    (∃ t, exec (.shr d r) s = .next t ∧
      WritesResult d (repeatTimes (s.reg r).toNat shrOnce (s.reg d)) s.flags s t) ∧
    (∃ t, exec (.ashr d r) s = .next t ∧
      WritesResult d (repeatTimes (s.reg r).toNat ashrOnce (s.reg d)) s.flags s t)

/-- 44_alu.md section 4, the closed form of `ashr`: the floor of the signed value over a power of two, and the sign for a
count of 16 or more. The count unsigned is the spec's decision D9 (log 10). -/
def Obligations.AshrIsFloorDivision : Prop :=
  ∀ a b : Word,
    (b.toNat < 16 → ashrResult a b = BitVec.ofInt 16 (a.toInt / 2 ^ b.toNat)) ∧
    (16 ≤ b.toNat → ashrResult a b = if a.toInt < 0 then 0xFFFF#16 else 0x0000#16)

/-- R231: the shifts write no flag, whatever the result. -/
def Obligations.ShiftsKeepFlags : Prop :=
  ∀ (d r : Reg) (s : State),
    (∃ t, exec (.shl d r) s = .next t ∧ t.flags = s.flags) ∧
    (∃ t, exec (.shr d r) s = .next t ∧ t.flags = s.flags) ∧
    (∃ t, exec (.ashr d r) s = .next t ∧ t.flags = s.flags)

/-- 44_alu.md section 5, `not` and `neg`: the complement of the source, 65535 less it and 65536 less it mod 2^16. No flag
written is the spec's decision D11 (log 12); the form `dst = 15` is decision D13 (log 14). -/
def Obligations.ComplementsWriteResultOnly : Prop :=
  ∀ (d r : Reg) (s : State),
    (∃ t, exec (.not d r) s = .next t ∧
      WritesResult d (BitVec.ofNat 16 (65535 - (s.reg r).toNat)) s.flags s t) ∧
    (∃ t, exec (.neg d r) s = .next t ∧
      WritesResult d (BitVec.ofNat 16 (65536 - (s.reg r).toNat)) s.flags s t)

/-- 10_state.md section 2: an instruction that reads register 15 reads its own address, in every operand that is read: the
source of each ALU operation, the destination of the eight that combine it, the address of `ld`, either operand of `st`,
the target of `jp` and of each conditional jump where it is taken (so that it jumps to itself). Where the result goes to
register 15 itself, the advance is the spec's decision D13 (log 14), its wrap D14 (log 15); the shift counts are D9 and
D10 (log 10, log 11). -/
def Obligations.ReadingPcReadsOwnAddress : Prop :=
  ∀ (d r : Reg) (s : State),
    (∃ t, exec (.nop d pcReg) s = .next t ∧ LeavesResult d s.pc s t) ∧
    (∃ t, exec (.not d pcReg) s = .next t ∧ LeavesResult d (~~~s.pc) s t) ∧
    (∃ t, exec (.neg d pcReg) s = .next t ∧ LeavesResult d (~~~s.pc + 1#16) s t) ∧
    (∃ t, exec (.or d pcReg) s = .next t ∧ LeavesResult d (s.reg d ||| s.pc) s t) ∧
    (∃ t, exec (.and d pcReg) s = .next t ∧ LeavesResult d (s.reg d &&& s.pc) s t) ∧
    (∃ t, exec (.xor d pcReg) s = .next t ∧ LeavesResult d (s.reg d ^^^ s.pc) s t) ∧
    (∃ t, exec (.add d pcReg) s = .next t ∧ LeavesResult d (s.reg d + s.pc) s t) ∧
    (∃ t, exec (.sub d pcReg) s = .next t ∧ LeavesResult d (s.reg d - s.pc) s t) ∧
    (∃ t, exec (.shl d pcReg) s = .next t ∧ LeavesResult d (s.reg d <<< s.pc.toNat) s t) ∧
    (∃ t, exec (.shr d pcReg) s = .next t ∧ LeavesResult d (s.reg d >>> s.pc.toNat) s t) ∧
    (∃ t, exec (.ashr d pcReg) s = .next t ∧ LeavesResult d ((s.reg d).sshiftRight s.pc.toNat) s t) ∧
    (∃ t, exec (.or pcReg r) s = .next t ∧ LeavesResult pcReg (s.pc ||| s.reg r) s t) ∧
    (∃ t, exec (.and pcReg r) s = .next t ∧ LeavesResult pcReg (s.pc &&& s.reg r) s t) ∧
    (∃ t, exec (.xor pcReg r) s = .next t ∧ LeavesResult pcReg (s.pc ^^^ s.reg r) s t) ∧
    (∃ t, exec (.add pcReg r) s = .next t ∧ LeavesResult pcReg (s.pc + s.reg r) s t) ∧
    (∃ t, exec (.sub pcReg r) s = .next t ∧ LeavesResult pcReg (s.pc - s.reg r) s t) ∧
    (∃ t, exec (.shl pcReg r) s = .next t ∧ LeavesResult pcReg (s.pc <<< (s.reg r).toNat) s t) ∧
    (∃ t, exec (.shr pcReg r) s = .next t ∧ LeavesResult pcReg (s.pc >>> (s.reg r).toNat) s t) ∧
    (∃ t, exec (.ashr pcReg r) s = .next t ∧ LeavesResult pcReg (s.pc.sshiftRight (s.reg r).toNat) s t) ∧
    (∃ t, exec (.ld d pcReg) s = .next t ∧ LeavesResult d (memRead s.mem s.pc) s t) ∧
    (memWf s.mem = true → ∃ t, exec (.st pcReg r) s = .next t ∧ memRead t.mem s.pc = s.reg r) ∧
    (memWf s.mem = true → ∃ t, exec (.st r pcReg) s = .next t ∧ memRead t.mem (s.reg r) = s.pc) ∧
    exec (.jp pcReg) s = .next s ∧
    (s.flags.c = true → exec (.jpc pcReg) s = .next s) ∧
    (s.flags.c = false → exec (.jpnc pcReg) s = .next s) ∧
    (s.flags.z = true → exec (.jpz pcReg) s = .next s) ∧
    (s.flags.z = false → exec (.jpnz pcReg) s = .next s) ∧
    (s.flags.s = true → exec (.jps pcReg) s = .next s) ∧
    (s.flags.s = false → exec (.jpns pcReg) s = .next s) ∧
    (s.flags.v = true → exec (.jpo pcReg) s = .next s) ∧
    (s.flags.v = false → exec (.jpno pcReg) s = .next s)

/-! ### Frames -/

/-- 10_state.md section 1: an instruction writes no register but its destination and `x[15]`. -/
def Obligations.RegisterFrame : Prop :=
  ∀ (i : Instr) (s t : State) (r : Reg), exec i s = .next t → destination i ≠ some r → r ≠ pcReg → t.reg r = s.reg r

/-- 20_memory.md section 2: no byte of memory changes but the two of the word that `st` stores, at the address its
meaning computes. The two bytes of a word are the model's cells (DESIGN CHOICE, log 1). -/
def Obligations.MemoryFrame : Prop :=
  ∀ (i : Instr) (s t : State) (k : Nat), exec i s = .next t →
    (∀ a, storeAddress i s = some a → k ≠ highCell a ∧ k ≠ lowCell a) → readByte t.mem k = readByte s.mem k

/-- 10_state.md section 3: no instruction but `nop`, `or`, `and`, `xor`, `add`, `sub` changes a flag. The rows of `not`,
`neg` and the instructions that are no ALU operation are the spec's decisions D11 and D12 (log 12, log 13). -/
def Obligations.FlagFrame : Prop :=
  ∀ (i : Instr) (s t : State), exec i s = .next t → writesFlags i = false → t.flags = s.flags

/-- 10_state.md section 3: only the conditional jumps read the flags; with other flags every other instruction leaves the
same registers, memory and run state, and the same flags where it writes them. -/
def Obligations.OnlyConditionalJumpsReadFlags : Prop :=
  ∀ (i : Instr) (s t : State) (f : Flags), readsFlags i = false → exec i s = .next t →
    ∃ u, exec i { s with flags := f } = .next u ∧ u.regs = t.regs ∧ u.mem = t.mem ∧ u.imem = t.imem ∧
      u.run = t.run ∧ u.fault = t.fault ∧ (writesFlags i = true → u.flags = t.flags)

/-- 10_state.md section 5: no instruction reads the run state or the fault record. -/
def Obligations.RunStateIsInvisible : Prop :=
  ∀ (i : Instr) (s t : State) (u : RunState) (g : Option FaultRecord), exec i s = .next t →
    ∃ t', exec i { s with run := u, fault := g } = .next t' ∧ t'.regs = t.regs ∧ t'.flags = t.flags ∧
      t'.mem = t.mem ∧ t'.imem = t.imem

/-! ### Memory -/

/-- R63: a read returns the latest write to its address in the run, or 0; a write changes the one word it addresses. -/
def Obligations.MemoryReadsLatestWrite : Prop :=
  (∀ (ws : List (Word × Word)) (a : Word),
    memRead (ws.foldl (fun m p => memWrite m p.1 p.2) State.reset.mem) a =
      ((ws.reverse.find? (fun p => p.1 == a)).map Prod.snd).getD 0#16) ∧
  (∀ (m : List Host.Cell) (a b v : Word), b ≠ a → memRead (memWrite m a v) b = memRead m b) ∧
  (∀ (m : List Host.Cell) (a v : Word), memWf m = true → memRead (memWrite m a v) a = v)

/-- The model's canonical form (log 1) is one: two canonical memories that read alike at every address are equal. -/
def Obligations.CanonicalMemoriesAreEqual : Prop :=
  ∀ m m' : List Host.Cell, memWf m = true → memWf m' = true → (∀ a : Word, memRead m a = memRead m' a) → m = m'

/-! ### Reset, load and runs -/

/-- R35, R39, R44: at the start of each run every register, the pc among them, reads 0, the engine is RUNNING and every
flag is clear, whatever the state before. -/
def Obligations.ResetClearsRegistersAndFlags : Prop :=
  ∀ s : State, ∀ t ∈ [State.reset, hostReset s],
    (∀ r, t.reg r = 0x0000#16) ∧ t.pc = 0x0000#16 ∧ t.run = .running ∧
    t.flags.c = false ∧ t.flags.z = false ∧ t.flags.s = false ∧ t.flags.v = false

/-- 70_reset_and_hazards.md section 1: reset gives every item its reset value from any state, clears the memory and keeps
the instruction memory. The spec's decisions D2, D16 and D32 (log 18). -/
def Obligations.HostResetRestoresEverything : Prop :=
  ∀ s : State, (∀ r, (hostReset s).reg r = 0x0000#16) ∧ (hostReset s).flags = State.reset.flags ∧
    (∀ a, memRead (hostReset s).mem a = 0x0000#16) ∧ (hostReset s).run = .running ∧ (hostReset s).fault = none ∧
    (hostReset s).imem = s.imem ∧ hostReset (hostReset s) = hostReset s

/-- 70_reset_and_hazards.md section 3 (load): only while the engine is not running, only an image of at most 65536 words,
and then the instruction memory is the image and nothing else changes. The spec's decisions D2 and D26 (log 4, log 18). -/
def Obligations.HostLoadsOnlyOutsideRunning : Prop :=
  ∀ (img : List Word) (s : State),
    (s.run = .running → hostLoad img s = none) ∧ (65536 < img.length → hostLoad img s = none) ∧
    (s.run ≠ .running → img.length ≤ 65536 →
      ∃ t, hostLoad img s = some t ∧ t = { s with imem := img } ∧
        ∀ n, n < img.length → t.iFetch (BitVec.ofNat 16 n) = img[n]?)

/-- R43: the carry flag is never set: every instruction leaves it as it was or writes 0, and it stays 0 in every state a
run reaches from reset. -/
def Obligations.CarryIsNeverSet : Prop :=
  (∀ (i : Instr) (s t : State), exec i s = .next t → t.flags.c = s.flags.c ∨ t.flags.c = false) ∧
  (∀ (i : Instr) (s t : State), exec i s = .next t → writesFlags i = true → t.flags.c = false) ∧
  (∀ s₀ t : State, Reaches (hostReset s₀) t → t.flags.c = false)

/-- Every step keeps the invariant of `State.Inv`: the canonical memory (log 1), the bound on the image (00_scope.md
section 4), a clear carry (10_state.md section 3), at most one other flag (95_test_vectors.md, conventions), and a fault
record exactly in FAULTED (10_state.md section 5; the spec's decision D16, log 5). -/
def Obligations.EveryStepKeepsInvariant : Prop :=
  ∀ s t : State, s.Inv → step s = .next t → t.Inv

/-- The state after reset satisfies the invariant; so does the reset of any state whose image fits, and the reset of a
state after a load. -/
def Obligations.InvariantHoldsAtReset : Prop :=
  State.reset.Inv ∧ (∀ s : State, s.imem.length ≤ 65536 → (hostReset s).Inv) ∧
  (∀ (img : List Word) (s t : State), hostLoad img s = some t → (hostReset t).Inv)

/-- 43_jumps.md, `jp`, and 40_execution_cycle.md section 4: `jp r15` jumps to itself for ever; under any step ceiling the
state is the same and RUNNING (the spec's decision D26 on the ceiling, log 18). -/
def Obligations.JumpToItselfHangs : Prop :=
  ∀ s : State, s.run = .running → s.iFetch s.pc = some 0xC00F#16 →
    step s = .next s ∧ ∀ n, runSteps n s = s ∧ (runSteps n s).run = .running

/-! ### The assembler -/

/-- R131: a label declared after exactly N executable lines resolves to N, whatever comments and labels precede it;
labels with no executable line between them resolve to the same address. -/
def Obligations.LabelResolvesToExecutableCount : Prop :=
  (∀ (pre post : List Text) (l name : Text), classify l = .label name → (∀ x ∈ pre, trim x ≠ trim l) →
    resolveLabel (pre ++ l :: post) name = some (pre.countP isExecutable)) ∧
  (∀ (pre mid post : List Text) (l q name name' : Text), classify l = .label name → classify q = .label name' →
    (∀ x ∈ pre, trim x ≠ trim l) → (∀ x ∈ pre ++ l :: mid, trim x ≠ trim q) → (∀ x ∈ mid, isExecutable x = false) →
    resolveLabel (pre ++ l :: mid ++ q :: post) name' = resolveLabel (pre ++ l :: mid ++ q :: post) name)

/-- 30_encoding.md section 6 (duplicate declarations): of several declarations of a label the first wins, the later ones are
the advisory duplicates and no error, and a duplicate line is no executable line. That duplicates are named by line
numbers counted from 1 is the model's choice (DESIGN CHOICE, log 22). -/
def Obligations.FirstDeclarationWins : Prop :=
  ∀ (pre post : List Text) (l name : Text), classify l = .label name → (∀ x ∈ pre, trim x ≠ name) →
    resolveLabel (pre ++ l :: post) name = some (pre.countP isExecutable) ∧
    (∀ n, n ∈ advisoryDuplicates (pre ++ l :: post) name ↔
      ∃ k x, post[k]? = some x ∧ trim x = name ∧ n = pre.length + 2 + k) ∧
    (∀ x, trim x = name → isExecutable x = false)

/-- R133: a label resolves iff some line's trimmed text is the token; an unresolved label in `li` is `LabelError`, and a
program with such a line has no image. -/
def Obligations.UnresolvedLabelIsFatal : Prop :=
  (∀ (lines : List Text) (tok : Text), resolveLabel lines tok = none ↔ ∀ x ∈ lines, trim x ≠ tok) ∧
  (∀ (lines : List Text) (r name : Text) (rd : Reg), registerOperand r = .ok rd →
    resolveLabel lines (':' :: name) = none →
    assembleTokens lines ["li".toList, r, ':' :: name] = .error .labelError) ∧
  (∀ (lines : List Text) (l t : Text), l ∈ lines → classify l = .executable t →
    assembleTokens lines (tokens t) = .error .labelError → ∃ e, assembleInstrs lines = .error e)

/-- R126: a numeric immediate, in any of its forms, is taken as it is up to 255 and is `RangeError` above. -/
def Obligations.NumericImmediateRange : Prop :=
  ∀ (lines : List Text) (r v : Text) (rd : Reg) (n : Nat), registerOperand r = .ok rd → parseNumber v = some n →
    (n ≤ 255 → ∃ imm8, assembleTokens lines ["li".toList, r, v] = .ok (.li rd imm8) ∧ imm8.toNat = n) ∧
    (255 < n → assembleTokens lines ["li".toList, r, v] = .error .rangeError)

/-- 30_encoding.md section 5 (register operands): every register name is read as its index; every token whose
digits, its decoration removed, read as a number above 15 is `RangeError`, the plain, the `r` and the parenthesised
spellings among them; so is a line with such an operand in any position of any operand form. That the operands are checked left to right is the model's choice
(DESIGN CHOICE, log 22); the decoration is the spec's decision D29 (log 20). -/
def Obligations.RegisterOperandRange : Prop :=
  (∀ r : Reg, registerOperand (regName r) = .ok r ∧ registerOperand (parenthesised (regName r)) = .ok r ∧
    registerOperand (regDigits r) = .ok r) ∧
  (∀ (tok : Text) (n : Nat), parseDigits 10 (stripLetter (stripParens (stripComma tok))) = some n → 15 < n →
    registerOperand tok = .error .rangeError) ∧
  (∀ (digits : Text) (n : Nat), parseDigits 10 digits = some n → 15 < n →
    registerOperand digits = .error .rangeError ∧ registerOperand ('r' :: digits) = .error .rangeError ∧
    registerOperand (parenthesised ('r' :: digits)) = .error .rangeError) ∧
  ∀ (lines : List Text) (bad ok v : Text) (r : Reg), registerOperand bad = .error .rangeError →
    registerOperand ok = .ok r →
    assembleTokens lines ["li".toList, bad, v] = .error .rangeError ∧
    (∀ m ∈ ["ld", "st", "nop", "or", "and", "xor", "add", "sub", "shl", "shr", "ashr", "not", "neg"],
      assembleTokens lines [m.toList, bad, ok] = .error .rangeError ∧
      assembleTokens lines [m.toList, ok, bad] = .error .rangeError) ∧
    (∀ m ∈ ["jp", "jpc", "jpnc", "jpz", "jpnz", "jps", "jpns", "jpo", "jpno"],
      assembleTokens lines [m.toList, bad] = .error .rangeError)

/-- 30_encoding.md sections 7 and 8: word `n` of an assembled image encodes executable line `n`, there is one word for each
executable line, and every word decodes to the instruction of its line. Program order is the spec's decision D1 (log 4),
the ALU tags are D5 (log 6). -/
def Obligations.AssembledImageIsInProgramOrder : Prop :=
  ∀ (program : Text) (ws : List Word), assemble program = .ok ws →
    ws.length = (splitLines program).countP isExecutable ∧
    ∀ (n : Nat) (l : Text), ((splitLines program).filter isExecutable)[n]? = some l →
      ∃ i, assembleTokens (splitLines program) (tokens (trim l)) = .ok i ∧ ws[n]? = some (encode i) ∧
        decode (encode i) = .ok i

/-- 30_encoding.md section 8: the text of an image reads back as the image. The details of the text are the spec's decision
D28 (log 20), the reader is the model's (DESIGN CHOICE, log 23). -/
def Obligations.ImageTextRoundTrips : Prop := ∀ ws : List Word, readImage (renderImage ws) = some ws
end

