-- ==== Sys2Proof/Laws/Assembler.lean ====
section
/-! SUPPORT. The assembler's functions, each said once. -/

namespace Sys2Proof.Machine

/-- A line of tokens with a known mnemonic is assembled from its operands. -/
theorem assembleTokens_of_lookup (lines : List Text) {m : Text} {form : OperandForm} (ops : List Text)
    (h : mnemonicTable.lookup m = some form) : assembleTokens lines (m :: ops) = assembleOperands lines form ops := by
  simp only [assembleTokens, h]

/-- An executable line's text is its trimmed text. -/
theorem trim_of_executable {l t : Text} (h : classify l = .executable t) : trim l = t := by
  unfold classify at h
  split at h
  · cases h
  · cases h
  · cases h
  · injection h

/-- A label line's name is its trimmed text, which starts with a colon. -/
theorem trim_of_label {l name : Text} (h : classify l = .label name) : trim l = name ∧ ∃ rest, name = ':' :: rest := by
  unfold classify at h
  split at h
  · cases h
  · cases h
  · rename_i rest e
    injection h with h
    exact ⟨e.trans h, rest, h.symm⟩
  · cases h

/-- A line whose trimmed text starts with a colon holds no instruction. -/
theorem not_isExecutable_of_colon {l rest : Text} (h : trim l = ':' :: rest) : isExecutable l = false := by
  simp only [isExecutable, classify, h]

/-- A register operand is its number where that is below 16. -/
theorem registerOperand_of_number {tok : Text} {n : Nat} (hn : n < 16)
    (h : parseDigits 10 (stripLetter (stripParens (stripComma tok))) = some n) :
    registerOperand tok = .ok ⟨n, hn⟩ := by
  simp only [registerOperand, h, hn, dite_true]

/-- A register number above 15 is a range error. -/
theorem registerOperand_rangeError {tok : Text} {n : Nat} (hn : ¬ n < 16)
    (h : parseDigits 10 (stripLetter (stripParens (stripComma tok))) = some n) :
    registerOperand tok = .error .rangeError := by
  simp only [registerOperand, h, hn, dite_false]

/-- A token that starts with a colon is no number. -/
theorem parseNumber_colon (rest : Text) : parseNumber (':' :: rest) = none := by
  simp [parseNumber, parseDigits, digitsFrom, digitValue]

end Sys2Proof.Machine
end

