-- ==== Sys2Proof/Laws/Codec.lean ====
section
/-! SUPPORT. The fields of the encoded formats, and the numbers behind the fields of a word. -/

namespace Sys2Proof

@[simp] theorem regBits_toNat (r : Reg) : (regBits r).toNat = r.val := by
  simp only [regBits, BitVec.toNat_ofNat]
  exact Nat.mod_eq_of_lt r.isLt

/-- A field of a word is a quotient and a remainder of its number. -/
theorem field_toNat (w : Word) (lo len : Nat) : (field w lo len).toNat = w.toNat / 2 ^ lo % 2 ^ len := by
  simp only [field, BitVec.extractLsb'_toNat, Nat.shiftRight_eq_div_pow]

theorem regField_val (w : Word) (lo : Nat) : (regField w lo).val = w.toNat / 2 ^ lo % 16 :=
  field_toNat w lo 4

theorem formatI_toNat (imm8 : BitVec 8) (rd : Reg) : (formatI imm8 rd).toNat = 4096 + imm8.toNat * 16 + rd.val := by
  have h := imm8.isLt
  have hr := rd.isLt
  unfold formatI
  rw [BitVec.toNat_append, BitVec.toNat_append, regBits_toNat, ← Nat.shiftLeft_add_eq_or_of_lt (by omega),
    ← Nat.shiftLeft_add_eq_or_of_lt (by omega)]
  simp only [Nat.shiftLeft_eq]
  simp
  omega

theorem formatRR_toNat (tag : BitVec 8) (r1 r2 : Reg) :
    (formatRR tag r1 r2).toNat = tag.toNat * 256 + r1.val * 16 + r2.val := by
  have h1 := r1.isLt
  have h2 := r2.isLt
  unfold formatRR
  rw [BitVec.toNat_append, BitVec.toNat_append, regBits_toNat, regBits_toNat,
    ← Nat.shiftLeft_add_eq_or_of_lt (by omega), ← Nat.shiftLeft_add_eq_or_of_lt (by omega)]
  simp only [Nat.shiftLeft_eq]
  omega

theorem formatJ_toNat (rt : Reg) : (formatJ rt).toNat = 49152 + rt.val := by
  have h := rt.isLt
  unfold formatJ
  rw [BitVec.toNat_append, regBits_toNat, ← Nat.shiftLeft_add_eq_or_of_lt (by omega)]
  simp [Nat.shiftLeft_eq]

theorem formatJC_toNat (cc : FlagCond) (rt : Reg) :
    (formatJC cc rt).toNat = 61440 + cc.code.toNat * 16 + rt.val := by
  have h := rt.isLt
  have hc := cc.code.isLt
  unfold formatJC
  rw [BitVec.toNat_append, BitVec.toNat_append, regBits_toNat, ← Nat.shiftLeft_add_eq_or_of_lt (by omega),
    ← Nat.shiftLeft_add_eq_or_of_lt (by omega)]
  simp only [Nat.shiftLeft_eq]
  simp
  omega

/-! ### Masks of the opcode map -/

/-- A mask of the opcode map keeps the high bits: as a number, whole multiples of `2 ^ k`. -/
theorem and_highMask_toNat (w mask : Word) (k : Nat) (hm : mask = BitVec.allOnes 16 >>> k <<< k) :
    (w &&& mask).toNat = w.toNat / 2 ^ k * 2 ^ k := by
  have h : w &&& mask = w >>> k <<< k := by
    subst hm
    apply BitVec.eq_of_getLsbD_eq
    intro i hi
    simp only [BitVec.getLsbD_and, BitVec.getLsbD_shiftLeft, BitVec.getLsbD_ushiftRight, BitVec.getLsbD_allOnes]
    by_cases hk : i < k
    · simp [hk]
    · have : k + (i - k) = i := by omega
      simp [hk, hi, this]
  have hle : w.toNat / 2 ^ k * 2 ^ k ≤ w.toNat := Nat.div_mul_le_self _ _
  rw [h, BitVec.toNat_shiftLeft, BitVec.toNat_ushiftRight, Nat.shiftLeft_eq, Nat.shiftRight_eq_div_pow]
  exact Nat.mod_eq_of_lt (by have := w.isLt; omega)

/-- A row with a high-bits mask spells exactly the words with its quotient. -/
theorem spells_iff (r : OpcodeRow) (w : Word) (k : Nat) (hm : r.mask = BitVec.allOnes 16 >>> k <<< k) :
    r.spells w = true ↔ w.toNat / 2 ^ k * 2 ^ k = r.pattern.toNat := by
  unfold OpcodeRow.spells
  rw [beq_iff_eq, ← BitVec.toNat_inj, and_highMask_toNat w r.mask k hm]

end Sys2Proof
end

