-- ==== Sys2Proof/Laws/Memory.lean ====
section
/-! SUPPORT. The data memory: reads after writes, and the canonical form that every write keeps. -/

namespace Sys2Proof.Machine

@[simp] theorem readByte_nil (k : Nat) : readByte [] k = unlistedByte := rfl

theorem readByte_cons (a : Nat) (b : BitVec 8) (m : List Host.Cell) (k : Nat) :
    readByte ((a, b) :: m) k = if a = k then b else readByte m k := rfl

/-- A cell in canonical form is no lower than the bound. -/
theorem readByte_below {m : List Host.Cell} {lo k : Nat} (h : memWfFrom lo m = true) (hk : k < lo) :
    readByte m k = unlistedByte := by
  induction m generalizing lo with
  | nil => rfl
  | cons c rest ih =>
    obtain ⟨a, b⟩ := c
    simp only [memWfFrom, Bool.and_eq_true, decide_eq_true_eq] at h
    rw [readByte_cons, if_neg (by omega)]
    exact ih h.2 (by omega)

theorem memWfFrom_mono {m : List Host.Cell} {lo lo' : Nat} (h : memWfFrom lo m = true) (hl : lo' ≤ lo) :
    memWfFrom lo' m = true := by
  cases m with
  | nil => rfl
  | cons c rest =>
    obtain ⟨a, b⟩ := c
    simp only [memWfFrom, Bool.and_eq_true, decide_eq_true_eq] at h ⊢
    exact ⟨⟨⟨by omega, h.1.1.2⟩, h.1.2⟩, h.2⟩

theorem readByte_consCell_of_ne {k j : Nat} (b : BitVec 8) (m : List Host.Cell) (h : j ≠ k) :
    readByte (consCell k b m) j = readByte m j := by
  unfold consCell
  split
  · rfl
  · rw [readByte_cons, if_neg (fun e => h e.symm)]

theorem readByte_consCell_same {k : Nat} (b : BitVec 8) {m : List Host.Cell} (h : readByte m k = unlistedByte) :
    readByte (consCell k b m) k = b := by
  unfold consCell
  split
  · rename_i e; rw [h, e]
  · rw [readByte_cons, if_pos rfl]

/-- A write of one byte leaves every other byte as it was. -/
theorem readByte_writeByte_of_ne {k j : Nat} (m : List Host.Cell) (b : BitVec 8) (h : j ≠ k) :
    readByte (writeByte m k b) j = readByte m j := by
  induction m with
  | nil => exact readByte_consCell_of_ne b [] h
  | cons c rest ih =>
    obtain ⟨a, d⟩ := c
    unfold writeByte
    split
    · exact readByte_consCell_of_ne b _ h
    · split
      · rename_i e
        rw [readByte_consCell_of_ne b _ h, readByte_cons, if_neg (fun e' => h (by omega))]
      · rw [readByte_cons, readByte_cons, ih]

/-- A byte written to a canonical memory is read back. -/
theorem readByte_writeByte_same {m : List Host.Cell} {lo : Nat} (k : Nat) (b : BitVec 8)
    (h : memWfFrom lo m = true) : readByte (writeByte m k b) k = b := by
  induction m generalizing lo with
  | nil => exact readByte_consCell_same b rfl
  | cons c rest ih =>
    obtain ⟨a, d⟩ := c
    have h' := h
    simp only [memWfFrom, Bool.and_eq_true, decide_eq_true_eq] at h'
    unfold writeByte
    split
    · refine readByte_consCell_same b ?_
      rw [readByte_cons, if_neg (by omega)]
      exact readByte_below h'.2 (by omega)
    · split
      · exact readByte_consCell_same b (readByte_below h'.2 (by omega))
      · rw [readByte_cons, if_neg (by omega)]
        exact ih h'.2

theorem memWfFrom_consCell {m : List Host.Cell} {lo k : Nat} (b : BitVec 8) (hk : lo ≤ k) (hc : k < memCells)
    (h : memWfFrom (k + 1) m = true) : memWfFrom lo (consCell k b m) = true := by
  unfold consCell
  split
  · exact memWfFrom_mono h (by omega)
  · rename_i e
    simp only [memWfFrom, Bool.and_eq_true, decide_eq_true_eq]
    exact ⟨⟨⟨hk, hc⟩, e⟩, h⟩

/-- A write of one byte keeps the canonical form. -/
theorem memWfFrom_writeByte {m : List Host.Cell} {lo k : Nat} (b : BitVec 8) (hk : lo ≤ k) (hc : k < memCells)
    (h : memWfFrom lo m = true) : memWfFrom lo (writeByte m k b) = true := by
  induction m generalizing lo with
  | nil => exact memWfFrom_consCell b hk hc rfl
  | cons c rest ih =>
    obtain ⟨a, d⟩ := c
    have h' := h
    simp only [memWfFrom, Bool.and_eq_true, decide_eq_true_eq] at h'
    unfold writeByte
    split
    · refine memWfFrom_consCell b hk hc ?_
      simp only [memWfFrom, Bool.and_eq_true, decide_eq_true_eq]
      exact ⟨⟨⟨by omega, h'.1.1.2⟩, h'.1.2⟩, h'.2⟩
    · split
      · exact memWfFrom_consCell b hk hc (memWfFrom_mono h'.2 (by omega))
      · simp only [memWfFrom, Bool.and_eq_true, decide_eq_true_eq]
        exact ⟨⟨⟨h'.1.1.1, h'.1.1.2⟩, h'.1.2⟩, ih (by omega) h'.2⟩

theorem highCell_lt (a : Word) : highCell a < memCells := by
  have := a.isLt
  simp only [highCell, memCells, Config.dataWords]
  omega

theorem lowCell_lt (a : Word) : lowCell a < memCells := by
  have := a.isLt
  simp only [lowCell, memCells, Config.dataWords]
  omega

/-- A store keeps the canonical form. -/
theorem memWf_memWrite {m : List Host.Cell} (a v : Word) (h : memWf m = true) : memWf (memWrite m a v) = true :=
  memWfFrom_writeByte _ (Nat.zero_le _) (lowCell_lt a)
    (memWfFrom_writeByte _ (Nat.zero_le _) (highCell_lt a) h)

/-- The memory after reset is canonical. -/
theorem memWf_reset : memWf State.reset.mem = true := rfl

/-- A store leaves every byte alone but the two of the word it addresses. -/
theorem readByte_memWrite_of_ne (m : List Host.Cell) (a v : Word) (k : Nat) (hh : k ≠ highCell a) (hl : k ≠ lowCell a) :
    readByte (memWrite m a v) k = readByte m k := by
  rw [memWrite, readByte_writeByte_of_ne _ _ hl, readByte_writeByte_of_ne _ _ hh]

theorem readByte_memWrite_high {m : List Host.Cell} (a v : Word) (h : memWf m = true) :
    readByte (memWrite m a v) (highCell a) = v.extractLsb' 8 8 := by
  rw [memWrite, readByte_writeByte_of_ne _ _ (by simp only [highCell, lowCell]; omega),
    readByte_writeByte_same _ _ h]

theorem readByte_memWrite_low {m : List Host.Cell} (a v : Word) (h : memWf m = true) :
    readByte (memWrite m a v) (lowCell a) = v.extractLsb' 0 8 :=
  readByte_writeByte_same _ _ (memWfFrom_writeByte _ (Nat.zero_le _) (highCell_lt a) h)

/-- The two halves of a word, put together again. -/
theorem halves_append (v : Word) : v.extractLsb' 8 8 ++ v.extractLsb' 0 8 = v := by
  apply BitVec.eq_of_getLsbD_eq
  intro i hi
  simp only [BitVec.getLsbD_append, BitVec.getLsbD_extractLsb']
  by_cases h : i < 8
  · simp [h]
  · simp only [h, decide_false, if_false]
    have h2 : i - 8 < 8 := by omega
    have h3 : 8 + (i - 8) = i := by omega
    simp [h2, h3]

end Sys2Proof.Machine
end

