-- ==== Sys2Proof/Laws/State.lean ====
section
/-! SUPPORT. One lemma per field per update of State, and the register file's read-after-write laws. -/

namespace Sys2Proof.Machine

variable (s : State) (r q : Reg) (v : Word)

/-! ### Register writes -/

@[simp] theorem setReg_flags : (s.setReg r v).flags = s.flags := rfl
@[simp] theorem setReg_mem : (s.setReg r v).mem = s.mem := rfl
@[simp] theorem setReg_imem : (s.setReg r v).imem = s.imem := rfl
@[simp] theorem setReg_run : (s.setReg r v).run = s.run := rfl
@[simp] theorem setReg_fault : (s.setReg r v).fault = s.fault := rfl

@[simp] theorem reg_setReg_same : (s.setReg r v).reg r = v := by
  simp [State.reg, State.setReg]

theorem reg_setReg_of_ne (h : q ≠ r) : (s.setReg r v).reg q = s.reg q := by
  simp only [State.reg, State.setReg]
  exact Vector.getElem_set_ne r.isLt q.isLt (fun e => h (Fin.ext e.symm))

theorem reg_setReg : (s.setReg r v).reg q = if q = r then v else s.reg q := by
  by_cases h : q = r
  · subst h; simp
  · rw [if_neg h, reg_setReg_of_ne s r q v h]

theorem pc_setReg : (s.setReg r v).pc = if r = pcReg then v else s.pc := by
  rw [State.pc, reg_setReg]
  by_cases h : r = pcReg
  · rw [if_pos h.symm, if_pos h]
  · rw [if_neg (fun e => h e.symm), if_neg h]; rfl

/-! ### The program counter -/

@[simp] theorem setPc_flags : (s.setPc v).flags = s.flags := rfl
@[simp] theorem setPc_mem : (s.setPc v).mem = s.mem := rfl
@[simp] theorem setPc_imem : (s.setPc v).imem = s.imem := rfl
@[simp] theorem setPc_run : (s.setPc v).run = s.run := rfl
@[simp] theorem setPc_fault : (s.setPc v).fault = s.fault := rfl
@[simp] theorem pc_setPc : (s.setPc v).pc = v := reg_setReg_same s pcReg v
theorem reg_setPc_of_ne (h : q ≠ pcReg) : (s.setPc v).reg q = s.reg q := reg_setReg_of_ne s pcReg q v h

@[simp] theorem advancePc_flags : s.advancePc.flags = s.flags := rfl
@[simp] theorem advancePc_mem : s.advancePc.mem = s.mem := rfl
@[simp] theorem advancePc_imem : s.advancePc.imem = s.imem := rfl
@[simp] theorem advancePc_run : s.advancePc.run = s.run := rfl
@[simp] theorem advancePc_fault : s.advancePc.fault = s.fault := rfl
@[simp] theorem pc_advancePc : s.advancePc.pc = s.pc + 1#16 := pc_setPc s _
theorem reg_advancePc_of_ne (h : q ≠ pcReg) : s.advancePc.reg q = s.reg q := reg_setPc_of_ne s q _ h

/-! ### Updates of the other fields keep the registers -/

@[simp] theorem reg_withFlags (f : Flags) : ({ s with flags := f } : State).reg r = s.reg r := rfl
@[simp] theorem pc_withFlags (f : Flags) : ({ s with flags := f } : State).pc = s.pc := rfl
@[simp] theorem reg_withMem (m : List Host.Cell) : ({ s with mem := m } : State).reg r = s.reg r := rfl
@[simp] theorem pc_withMem (m : List Host.Cell) : ({ s with mem := m } : State).pc = s.pc := rfl
@[simp] theorem reg_withRun (u : RunState) : ({ s with run := u } : State).reg r = s.reg r := rfl
@[simp] theorem pc_withRun (u : RunState) : ({ s with run := u } : State).pc = s.pc := rfl
@[simp] theorem reg_withImem (l : List Word) : ({ s with imem := l } : State).reg r = s.reg r := rfl
@[simp] theorem pc_withImem (l : List Word) : ({ s with imem := l } : State).pc = s.pc := rfl

/-! ### Fault entry -/

variable (c : FaultCause) (w : Option Word)

@[simp] theorem raise_regs : (s.raise c w).regs = s.regs := rfl
@[simp] theorem raise_flags : (s.raise c w).flags = s.flags := rfl
@[simp] theorem raise_mem : (s.raise c w).mem = s.mem := rfl
@[simp] theorem raise_imem : (s.raise c w).imem = s.imem := rfl
@[simp] theorem raise_run : (s.raise c w).run = .faulted := rfl
@[simp] theorem raise_fault : (s.raise c w).fault = some { cause := c, faultPc := s.pc, faultWord := w } := rfl

/-! ### Reset and load -/

@[simp] theorem reset_flags : State.reset.flags = clearedFlags := rfl
@[simp] theorem reset_mem : State.reset.mem = [] := rfl
@[simp] theorem reset_imem : State.reset.imem = [] := rfl
@[simp] theorem reset_run : State.reset.run = .running := rfl
@[simp] theorem reset_fault : State.reset.fault = none := rfl
@[simp] theorem reset_reg : State.reset.reg r = 0#16 := by
  simp [State.reg, State.reset]

@[simp] theorem hostReset_regs : (hostReset s).regs = State.reset.regs := rfl
@[simp] theorem hostReset_flags : (hostReset s).flags = clearedFlags := rfl
@[simp] theorem hostReset_mem : (hostReset s).mem = [] := rfl
@[simp] theorem hostReset_imem : (hostReset s).imem = s.imem := rfl
@[simp] theorem hostReset_run : (hostReset s).run = .running := rfl
@[simp] theorem hostReset_fault : (hostReset s).fault = none := rfl

/-- A load changes the instruction memory and nothing else, and only outside RUNNING. -/
theorem hostLoad_eq_some (img : List Word) (t : State) :
    hostLoad img s = some t ↔ s.run ≠ .running ∧ imageOk img = true ∧ t = { s with imem := img } := by
  unfold hostLoad
  split
  · rename_i h
    simp only [Option.some.injEq, h, true_and, ne_eq, not_false_eq_true]
    exact eq_comm
  · rename_i h
    simp only [reduceCtorEq, false_iff]
    exact fun ⟨a, b, _⟩ => h ⟨a, b⟩

/-! ### Placing a word for the next fetch -/

@[simp] theorem withFetchWord_regs (nbits n : Nat) : (s.withFetchWord nbits n).regs = s.regs := rfl
@[simp] theorem withFetchWord_flags (nbits n : Nat) : (s.withFetchWord nbits n).flags = s.flags := rfl
@[simp] theorem withFetchWord_mem (nbits n : Nat) : (s.withFetchWord nbits n).mem = s.mem := rfl
@[simp] theorem withFetchWord_run (nbits n : Nat) : (s.withFetchWord nbits n).run = .running := rfl
@[simp] theorem withFetchWord_fault (nbits n : Nat) : (s.withFetchWord nbits n).fault = none := rfl

end Sys2Proof.Machine
end

