-- ==== Sys2Proof/Laws/Ops.lean ====
section
/-! SUPPORT. For each shared operation, once, everything it does. -/

namespace Sys2Proof.Machine

/-- What the end of an instruction can answer. -/
theorem finish_cases (c : Completion) (s : State) :
    (c = .next ∧ finish c s = .next s.advancePc) ∨ (c = .jumped ∧ finish c s = .next s) ∨
      (c = .halted ∧ finish c s = .next { s with run := .halted }) := by
  cases c with
  | next => exact .inl ⟨rfl, rfl⟩
  | jumped => exact .inr (.inl ⟨rfl, rfl⟩)
  | halted => exact .inr (.inr ⟨rfl, rfl⟩)

/-- Writing a register and advancing leaves the registers but the written one and the pc as they were. -/
theorem reg_setReg_advancePc (s : State) (d r : Reg) (v : Word) (hd : r ≠ d) (hp : r ≠ pcReg) :
    (s.setReg d v).advancePc.reg r = s.reg r := by
  rw [reg_advancePc_of_ne _ _ hp, reg_setReg_of_ne _ _ _ _ hd]

/-- Everything `writeResultFlags` does. -/
theorem writeResultFlags_spec (d : Reg) (v : Word) (f : Flags) (s : State) :
    ∃ t, writeResultFlags d v f s = .next t ∧ WritesResult d v f s t := by
  refine ⟨_, rfl, ⟨?_, ?_⟩, ?_, rfl, ⟨fun _ => rfl, rfl, rfl, rfl⟩⟩
  · intro h
    rw [reg_advancePc_of_ne _ _ h, reg_setReg_same]
  · rw [pc_advancePc, pc_setReg]
    rfl
  · intro r hd hp
    rw [reg_setReg_advancePc _ _ _ _ hd hp]
    rfl

/-- Everything `writeResult` does: the flags stay. -/
theorem writeResult_spec (d : Reg) (v : Word) (s : State) :
    ∃ t, writeResult d v s = .next t ∧ WritesResult d v s.flags s t :=
  writeResultFlags_spec d v s.flags s

/-- Everything `jumpIf` does. -/
theorem jumpIf_spec (cc : FlagCond) (rt : Reg) (s : State) :
    ∃ t, jumpIf cc rt s = .next t ∧ JumpsOrFallsThrough rt (condHolds cc s.flags) s t := by
  unfold jumpIf
  split
  · rename_i h
    refine ⟨_, rfl, ?_, fun r hr => reg_setPc_of_ne s r _ hr, rfl, ⟨fun _ => rfl, rfl, rfl, rfl⟩⟩
    rw [pc_setPc, if_pos h]; rfl
  · rename_i h
    refine ⟨_, rfl, ?_, fun r hr => reg_advancePc_of_ne s r hr, rfl, ⟨fun _ => rfl, rfl, rfl, rfl⟩⟩
    rw [pc_advancePc, if_neg h]

/-- Everything `takeJump` does. -/
theorem takeJump_spec (rt : Reg) (s : State) :
    ∃ t, takeJump rt s = .next t ∧ JumpsOrFallsThrough rt true s t := by
  refine ⟨_, rfl, ?_, fun r hr => reg_setPc_of_ne s r _ hr, rfl, ⟨fun _ => rfl, rfl, rfl, rfl⟩⟩
  rw [pc_setPc, if_pos rfl]; rfl

/-- A fetch has a word exactly below `PROG_LEN`. -/
theorem iFetch_eq_none (s : State) (a : Word) : s.iFetch a = none ↔ s.progLen ≤ a.toNat := by
  simp [State.iFetch, State.progLen]

/-- The word placed by `imemWithWord` stands at its address. -/
theorem getElem?_imemWithWord (imem : List Word) (a : Nat) (w : Word) : (imemWithWord imem a w)[a]? = some w := by
  unfold imemWithWord
  rw [List.getElem?_set_self]
  rw [List.length_append, List.length_replicate]
  omega

/-- The next fetch after `withFetchWord` gives the word. -/
theorem iFetch_withFetchWord (s : State) (nbits n : Nat) :
    (s.withFetchWord nbits n).iFetch (s.withFetchWord nbits n).pc = some (BitVec.ofNat 16 (n % 2 ^ nbits)) :=
  getElem?_imemWithWord s.imem s.pc.toNat _

/-- What a step can answer: in RUNNING a fault entry or the instruction's own outcome, else no step. -/
theorem step_cases (s : State) :
    (s.run = .running ∧ s.iFetch s.pc = none ∧ step s = .next (s.raise .fetchOutOfRange none)) ∨
    (∃ w e, s.run = .running ∧ s.iFetch s.pc = some w ∧ decode w = .error e ∧
      step s = .next (s.raise .illegalInstruction (some w))) ∨
    (∃ w i, s.run = .running ∧ s.iFetch s.pc = some w ∧ decode w = .ok i ∧ step s = exec i s) ∨
    (s.run = .halted ∧ step s = .fault .haltedHasNoStep) ∨
    (s.run = .faulted ∧ step s = .fault .faultedHasNoStep) := by
  unfold step engineStep
  cases hr : s.run with
  | halted => exact .inr (.inr (.inr (.inl ⟨rfl, rfl⟩)))
  | faulted => exact .inr (.inr (.inr (.inr ⟨rfl, rfl⟩)))
  | running =>
    unfold runningStep
    cases hf : s.iFetch s.pc with
    | none => exact .inl ⟨rfl, rfl, rfl⟩
    | some w =>
      cases hd : decode w with
      | error e => exact .inr (.inl ⟨w, e, rfl, rfl, hd, by simp only [hd]⟩)
      | ok i => exact .inr (.inr (.inl ⟨w, i, rfl, rfl, hd, by simp only [hd]⟩))

end Sys2Proof.Machine
end

