-- ==== Sys2Proof/Laws/PerInstr.lean ====
section
/-! SUPPORT. The per-instruction family `EncodeMatchesRow`: an instruction's word is spelled by its own row of the opcode
map (30_encoding.md R102). -/

namespace Sys2Proof.Laws.EncodeMatchesRow

/-- The word of an instruction matches the pattern of its row under the row's mask. -/
def Statement (i : Instr) : Prop := i.row.spells (encode i) = true

/-- Format RR under the mask 0xFF00. -/
theorem of_formatRR (r : OpcodeRow) (tag : BitVec 8) (r1 r2 : Reg) (hm : r.mask = 0xFF00#16)
    (hp : r.pattern.toNat = tag.toNat * 256) : r.spells (formatRR tag r1 r2) = true := by
  rw [spells_iff r _ 8 hm, formatRR_toNat, hp]
  have := r1.isLt
  have := r2.isLt
  omega

/-- Format JC under the mask 0xFFF0. -/
theorem of_formatJC (r : OpcodeRow) (cc : FlagCond) (rt : Reg) (hm : r.mask = 0xFFF0#16)
    (hp : r.pattern.toNat = 61440 + cc.code.toNat * 16) : r.spells (formatJC cc rt) = true := by
  rw [spells_iff r _ 4 hm, formatJC_toNat, hp]
  have := rt.isLt
  omega

theorem halt : Statement .halt := rfl

theorem li (rd : Reg) (imm8 : BitVec 8) : Statement (.li rd imm8) := by
  unfold Statement
  rw [spells_iff _ _ 12 rfl, encode, formatI_toNat]
  have h1 := rd.isLt
  have h2 := imm8.isLt
  simp only [Instr.row, BitVec.toNat_ofNat]
  omega

theorem ld (rd ra : Reg) : Statement (.ld rd ra) := of_formatRR _ 0x80#8 rd ra rfl rfl
theorem st (ra rv : Reg) : Statement (.st ra rv) := of_formatRR _ 0xA0#8 ra rv rfl rfl

theorem jp (rt : Reg) : Statement (.jp rt) := by
  unfold Statement
  rw [spells_iff _ _ 4 rfl, encode, formatJ_toNat]
  have h1 := rt.isLt
  simp only [Instr.row, BitVec.toNat_ofNat]
  omega

theorem jpc (rt : Reg) : Statement (.jpc rt) := of_formatJC _ .carry rt rfl rfl
theorem jpnc (rt : Reg) : Statement (.jpnc rt) := of_formatJC _ .noCarry rt rfl rfl
theorem jpz (rt : Reg) : Statement (.jpz rt) := of_formatJC _ .zero rt rfl rfl
theorem jpnz (rt : Reg) : Statement (.jpnz rt) := of_formatJC _ .notZero rt rfl rfl
theorem jps (rt : Reg) : Statement (.jps rt) := of_formatJC _ .sign rt rfl rfl
theorem jpns (rt : Reg) : Statement (.jpns rt) := of_formatJC _ .notSign rt rfl rfl
theorem jpo (rt : Reg) : Statement (.jpo rt) := of_formatJC _ .overflow rt rfl rfl
theorem jpno (rt : Reg) : Statement (.jpno rt) := of_formatJC _ .noOverflow rt rfl rfl

theorem nop (dst src : Reg) : Statement (.nop dst src) := of_formatRR _ 0x40#8 dst src rfl rfl
theorem or (dst src : Reg) : Statement (.or dst src) := of_formatRR _ 0x41#8 dst src rfl rfl
theorem and (dst src : Reg) : Statement (.and dst src) := of_formatRR _ 0x42#8 dst src rfl rfl
theorem xor (dst src : Reg) : Statement (.xor dst src) := of_formatRR _ 0x43#8 dst src rfl rfl
theorem add (dst src : Reg) : Statement (.add dst src) := of_formatRR _ 0x44#8 dst src rfl rfl
theorem sub (dst src : Reg) : Statement (.sub dst src) := of_formatRR _ 0x45#8 dst src rfl rfl
theorem shl (dst src : Reg) : Statement (.shl dst src) := of_formatRR _ 0x46#8 dst src rfl rfl
theorem shr (dst src : Reg) : Statement (.shr dst src) := of_formatRR _ 0x47#8 dst src rfl rfl
theorem ashr (dst src : Reg) : Statement (.ashr dst src) := of_formatRR _ 0x48#8 dst src rfl rfl
theorem not (dst src : Reg) : Statement (.not dst src) := of_formatRR _ 0x49#8 dst src rfl rfl
theorem neg (dst src : Reg) : Statement (.neg dst src) := of_formatRR _ 0x4A#8 dst src rfl rfl

end Sys2Proof.Laws.EncodeMatchesRow
end

