-- ==== Sys2Proof/Tests/Slice0.lean ====
section
/-! SUPPORT. Tests. Every expected value is the spec's: 95_test_vectors.md (its ids in the comments), or the words written
out from the encodings of 30_encoding.md. The theorems named `witness_…` show that the hypotheses of a statement of
Certificates/Slice0/Obligations.lean are met. -/

namespace Sys2Proof.Tests

open Sys2Proof Sys2Proof.Machine

/-- A state: the reset state with a pc, some registers and the flags `C`, `Z`, `S`, `V`. -/
def stateAt (pc : Nat) (rs : List (Reg × Nat)) (c z s v : Bool) : State :=
  let s₀ := rs.foldl (fun s p => s.setReg p.1 (BitVec.ofNat 16 p.2)) (State.reset.setPc (BitVec.ofNat 16 pc))
  { s₀ with flags := { c := c, z := z, s := s, v := v } }

/-- A state with one memory word besides. -/
def withWord (s : State) (a v : Nat) : State := { s with mem := memWrite s.mem (BitVec.ofNat 16 a) (BitVec.ofNat 16 v) }

/-- The state after one step that runs a word, if the step gives one. -/
def after (s : State) (w : Nat) : Option State :=
  match step (s.withFetchWord 16 w) with
  | .next t => some t
  | .fault _ => none
  | .refused _ => none

/-- What a test looks at: a register, the pc, the flags. -/
def seen (r : Reg) (o : Option State) : Option (Nat × Nat × Flags) := o.map fun t => ((t.reg r).toNat, t.pc.toNat, t.flags)

/-- What a test looks at: a memory word, the pc, the flags. -/
def seenWord (a : Nat) (o : Option State) : Option (Nat × Nat × Flags) :=
  o.map fun t => ((memRead t.mem (BitVec.ofNat 16 a)).toNat, t.pc.toNat, t.flags)

/-- The flags `C`, `Z`, `S`, `V`. -/
def flags (c z s v : Bool) : Flags := { c := c, z := z, s := s, v := v }

/-! ### Decoding: every constructor, from a word written out bit by bit, its operands at a boundary of their fields -/

theorem test_decode_halt : decode 0b0000000000000000#16 = .ok .halt := by decide
theorem test_decode_li : decode 0b0001111111111111#16 = .ok (.li 15 255) := by decide
theorem test_decode_ld : decode 0b1000000000011111#16 = .ok (.ld 1 15) := by decide
theorem test_decode_st : decode 0b1010000011110010#16 = .ok (.st 15 2) := by decide
theorem test_decode_jp : decode 0b1100000000001111#16 = .ok (.jp 15) := by decide
theorem test_decode_jpc : decode 0b1111000000001111#16 = .ok (.jpc 15) := by decide
theorem test_decode_jpnc : decode 0b1111000000011111#16 = .ok (.jpnc 15) := by decide
theorem test_decode_jpz : decode 0b1111000000101111#16 = .ok (.jpz 15) := by decide
theorem test_decode_jpnz : decode 0b1111000000111111#16 = .ok (.jpnz 15) := by decide
theorem test_decode_jps : decode 0b1111000001001111#16 = .ok (.jps 15) := by decide
theorem test_decode_jpns : decode 0b1111000001011111#16 = .ok (.jpns 15) := by decide
theorem test_decode_jpo : decode 0b1111000001101111#16 = .ok (.jpo 15) := by decide
theorem test_decode_jpno : decode 0b1111000001111111#16 = .ok (.jpno 15) := by decide
theorem test_decode_nop : decode 0b0100000000001111#16 = .ok (.nop 0 15) := by decide
theorem test_decode_or : decode 0b0100000111110000#16 = .ok (.or 15 0) := by decide
theorem test_decode_and : decode 0b0100001000001111#16 = .ok (.and 0 15) := by decide
theorem test_decode_xor : decode 0b0100001111110000#16 = .ok (.xor 15 0) := by decide
theorem test_decode_add : decode 0b0100010000001111#16 = .ok (.add 0 15) := by decide
theorem test_decode_sub : decode 0b0100010111110000#16 = .ok (.sub 15 0) := by decide
theorem test_decode_shl : decode 0b0100011000001111#16 = .ok (.shl 0 15) := by decide
theorem test_decode_shr : decode 0b0100011111110000#16 = .ok (.shr 15 0) := by decide
theorem test_decode_ashr : decode 0b0100100000001111#16 = .ok (.ashr 0 15) := by decide
theorem test_decode_not : decode 0b0100100111110000#16 = .ok (.not 15 0) := by decide
theorem test_decode_neg : decode 0b0100101000001111#16 = .ok (.neg 0 15) := by decide

/-- The first and last word of every unassigned range (30_encoding.md R107), and words 95_test_vectors.md section 6 lists. -/
theorem test_decode_unassigned :
    [0x0001, 0x0FFF, 0x2000, 0x3FFF, 0x4B00, 0x7FFF, 0x8100, 0x9FFF, 0xA100, 0xBFFF, 0xC010, 0xEFFF, 0xF080, 0xFFFF, 0x3ABC,
      0xCFFF].all (fun w => (decodeTableWord 16 w).isNone) = true := by decide

/-- The assigned words beside the unassigned ranges (30_encoding.md R102). -/
theorem test_decode_assigned_neighbours :
    [0x0000, 0x1000, 0x1FFF, 0x4000, 0x4AFF, 0x8000, 0x80FF, 0xA000, 0xA0FF, 0xC000, 0xC00F, 0xF000, 0xF07F].all
      (fun w => (decodeTableWord 16 w).isSome) = true := by decide

/-- The encoder writes the same words (95_test_vectors.md E1, P2, P3). -/
theorem test_encode_words :
    [Instr.halt, .li 1 5, .ld 1 2, .st 1 2, .jp 3, .jpz 3, .add 1 2, .shl 2 3, .neg 6 1, .not 7 6].map encode =
      [0x0000#16, 0x1051#16, 0x8012#16, 0xA012#16, 0xC003#16, 0xF023#16, 0x4412#16, 0x4623#16, 0x4A61#16, 0x4976#16] := by
  decide

theorem test_opcodeMap_has_24_rows : opcodeMap.length = 24 := by decide

theorem test_decodeTableWord_add : decodeTableWord 16 0x4412 = some (.add 1 2) := by decide

theorem test_decodeTableWord_unassigned : decodeTableWord 16 0x8100 = none := by decide

/-! ### The checks of WellFormed.lean refuse -/

theorem test_regNumberOk_refuses_16 : regNumberOk 16 = false := by decide

theorem test_regNumberOk_accepts_15 : regNumberOk 15 = true := by decide

theorem test_immediateOk_refuses_256 : immediateOk 256 = false := by decide

theorem test_immediateOk_accepts_255 : immediateOk 255 = true := by decide

theorem test_imageOk_refuses_65537_words : imageOk (List.replicate 65537 0x0000#16) = false := by
  simp only [imageOk, Config.maxProgLen, List.length_replicate]
  decide

theorem test_imageOk_accepts_65536_words : imageOk (List.replicate 65536 0x0000#16) = true := by
  simp only [imageOk, Config.maxProgLen, List.length_replicate]
  decide

/-! ### One step of each instruction -/

/-- T1: HALTED, the pc kept. -/
theorem test_halt_halts : (after (stateAt 7 [] false true false false) 0x0000).map (fun t => (t.run, t.pc.toNat, t.flags)) =
    some (.halted, 7, flags false true false false) := by decide

/-- T3 -/
theorem test_li_keeps_flags :
    seen 1 (after (stateAt 0 [] false true false false) 0x1001) = some (0, 1, flags false true false false) := by decide

/-- T4 -/
theorem test_li_clears_high_byte :
    seen 2 (after (stateAt 0 [(2, 0xABCD)] false false false false) 0x1FF2) = some (255, 1, flags false false false false) := by decide

/-- T12 -/
theorem test_ld_address_read_first :
    seen 2 (after (withWord (stateAt 0 [(2, 5)] false false false false) 5 0x0777) 0x8022) = some (0x0777, 1, flags false false false false) := by decide

/-- T15 -/
theorem test_ld_pc_as_destination :
    seen 15 (after (withWord (stateAt 0 [(1, 0)] false false false false) 0 5) 0x80F1) = some (6, 6, flags false false false false) := by decide

/-- T16 -/
theorem test_st_first_operand_is_address :
    seenWord 0x0010 (after (stateAt 0 [(1, 0x0010), (2, 0x00AB)] false true false false) 0xA012) = some (0x00AB, 1, flags false true false false) := by decide

/-- T20 -/
theorem test_st_top_of_memory :
    seenWord 0xFFFF (after (stateAt 0 [(1, 0xFFFF), (2, 0x1111)] false false false false) 0xA012) = some (0x1111, 1, flags false false false false) := by decide

/-- T30 -/
theorem test_jp_jumps :
    seen 5 (after (stateAt 4 [(5, 9)] false false false false) 0xC005) = some (9, 9, flags false false false false) := by decide

/-- T45 -/
theorem test_jp_to_itself :
    seen 15 (after (stateAt 1 [] false false false false) 0xC00F) = some (1, 1, flags false false false false) := by decide

/-- R193: taken iff C = 1 -/
theorem test_jpc_taken :
    seen 5 (after (stateAt 4 [(5, 9)] true false false false) 0xF005) = some (9, 9, flags true false false false) := by decide

/-- T31 -/
theorem test_jpc_falls_through :
    seen 5 (after (stateAt 4 [(5, 9)] false false false false) 0xF005) = some (9, 5, flags false false false false) := by decide

/-- T32 -/
theorem test_jpnc_taken :
    seen 5 (after (stateAt 4 [(5, 9)] false false false false) 0xF015) = some (9, 9, flags false false false false) := by decide

/-- R194: taken iff C = 0 -/
theorem test_jpnc_falls_through :
    seen 5 (after (stateAt 4 [(5, 9)] true false false false) 0xF015) = some (9, 5, flags true false false false) := by decide

/-- T33 -/
theorem test_jpz_taken :
    seen 5 (after (stateAt 4 [(5, 9)] false true false false) 0xF025) = some (9, 9, flags false true false false) := by decide

/-- T34 -/
theorem test_jpz_falls_through :
    seen 5 (after (stateAt 4 [(5, 9)] false false false false) 0xF025) = some (9, 5, flags false false false false) := by decide

/-- T35 -/
theorem test_jpnz_taken :
    seen 5 (after (stateAt 4 [(5, 9)] false false false false) 0xF035) = some (9, 9, flags false false false false) := by decide

/-- T36 -/
theorem test_jpnz_falls_through :
    seen 5 (after (stateAt 4 [(5, 9)] false true false false) 0xF035) = some (9, 5, flags false true false false) := by decide

/-- T37 -/
theorem test_jps_taken :
    seen 5 (after (stateAt 4 [(5, 9)] false false true false) 0xF045) = some (9, 9, flags false false true false) := by decide

/-- T38 -/
theorem test_jps_falls_through :
    seen 5 (after (stateAt 4 [(5, 9)] false false false false) 0xF045) = some (9, 5, flags false false false false) := by decide

/-- T39 -/
theorem test_jpns_taken :
    seen 5 (after (stateAt 4 [(5, 9)] false false false false) 0xF055) = some (9, 9, flags false false false false) := by decide

/-- T40 -/
theorem test_jpns_falls_through :
    seen 5 (after (stateAt 4 [(5, 9)] false false true false) 0xF055) = some (9, 5, flags false false true false) := by decide

/-- T41 -/
theorem test_jpo_taken :
    seen 5 (after (stateAt 4 [(5, 9)] false false false true) 0xF065) = some (9, 9, flags false false false true) := by decide

/-- T42 -/
theorem test_jpo_falls_through :
    seen 5 (after (stateAt 4 [(5, 9)] false false false false) 0xF065) = some (9, 5, flags false false false false) := by decide

/-- T43 -/
theorem test_jpno_taken :
    seen 5 (after (stateAt 4 [(5, 9)] false false false false) 0xF075) = some (9, 9, flags false false false false) := by decide

/-- T44 -/
theorem test_jpno_falls_through :
    seen 5 (after (stateAt 4 [(5, 9)] false false false true) 0xF075) = some (9, 5, flags false false false true) := by decide

/-- T60 -/
theorem test_nop_clears_zero_too :
    seen 1 (after (stateAt 0 [(1, 0x1234), (2, 0x0000)] false false true false) 0x4012) = some (0x0000, 1, flags false false false false) := by decide

/-- T61 -/
theorem test_nop_copies :
    seen 1 (after (stateAt 0 [(1, 0x0000), (2, 0x8000)] false false false false) 0x4012) = some (0x8000, 1, flags false false false false) := by decide

/-- T62 -/
theorem test_or_sets_zero :
    seen 1 (after (stateAt 0 [(1, 0x0000), (2, 0x0000)] false false false true) 0x4112) = some (0x0000, 1, flags false true false false) := by decide

/-- T64 -/
theorem test_or_clears_sign :
    seen 1 (after (stateAt 0 [(1, 0x8000), (2, 0x0000)] false false false false) 0x4112) = some (0x8000, 1, flags false false false false) := by decide

/-- T65 -/
theorem test_and_sets_zero :
    seen 1 (after (stateAt 0 [(1, 0x0F0F), (2, 0xF0F0)] false false false false) 0x4212) = some (0x0000, 1, flags false true false false) := by decide

/-- T66 -/
theorem test_and_result :
    seen 1 (after (stateAt 0 [(1, 0xFFFF), (2, 0x8001)] false true false false) 0x4212) = some (0x8001, 1, flags false false false false) := by decide

/-- T67 -/
theorem test_xor_result :
    seen 1 (after (stateAt 0 [(1, 0x00FF), (2, 0x0F0F)] false false false false) 0x4312) = some (0x0FF0, 1, flags false false false false) := by decide

/-- T68 -/
theorem test_xor_sets_zero :
    seen 1 (after (stateAt 0 [(1, 0x5555), (2, 0x5555)] false false false false) 0x4312) = some (0x0000, 1, flags false true false false) := by decide

/-- T71 -/
theorem test_add_sets_overflow :
    seen 1 (after (stateAt 0 [(1, 0x7FFF), (2, 0x0001)] false false false false) 0x4412) = some (0x8000, 1, flags false false false true) := by decide

/-- T73 -/
theorem test_add_negative_overflow_not_set :
    seen 1 (after (stateAt 0 [(1, 0x8000), (2, 0x8000)] false false false false) 0x4412) = some (0x0000, 1, flags false true false false) := by decide

/-- T81 -/
theorem test_sub_sets_sign :
    seen 1 (after (stateAt 0 [(1, 0x0001), (2, 0x0002)] false false false false) 0x4512) = some (0xFFFF, 1, flags false false true false) := by decide

/-- T82 -/
theorem test_sub_sign_is_of_the_stored_word :
    seen 1 (after (stateAt 0 [(1, 0x8000), (2, 0x0001)] false false false false) 0x4512) = some (0x7FFF, 1, flags false false false false) := by decide

/-- T86 -/
theorem test_shl_keeps_flags :
    seen 1 (after (stateAt 0 [(1, 0x00AB), (2, 0x0008)] false false false true) 0x4612) = some (0xAB00, 1, flags false false false true) := by decide

/-- T90 -/
theorem test_shl_by_65535 :
    seen 1 (after (stateAt 0 [(1, 0xFFFF), (2, 0xFFFF)] false false false false) 0x4612) = some (0x0000, 1, flags false false false false) := by decide

/-- T93 -/
theorem test_shr_shifts_in_zeros :
    seen 1 (after (stateAt 0 [(1, 0xFFFF), (2, 0x0004)] false false false false) 0x4712) = some (0x0FFF, 1, flags false false false false) := by decide

/-- T94 -/
theorem test_shr_by_16 :
    seen 1 (after (stateAt 0 [(1, 0xFFFF), (2, 0x0010)] false true false false) 0x4712) = some (0x0000, 1, flags false true false false) := by decide

/-- T99 -/
theorem test_ashr_by_16 :
    seen 1 (after (stateAt 0 [(1, 0x8000), (2, 0x0010)] false false false false) 0x4812) = some (0xFFFF, 1, flags false false false false) := by decide

/-- T103 -/
theorem test_ashr_by_1 :
    seen 1 (after (stateAt 0 [(1, 0x8001), (2, 0x0001)] false false false false) 0x4812) = some (0xC000, 1, flags false false false false) := by decide

/-- T105 -/
theorem test_not_keeps_flags :
    seen 1 (after (stateAt 0 [(1, 0x0000), (2, 0xFFFF)] false false true false) 0x4912) = some (0x0000, 1, flags false false true false) := by decide

/-- T106 -/
theorem test_not_result :
    seen 1 (after (stateAt 0 [(1, 0x0000), (2, 0x1234)] false false false false) 0x4912) = some (0xEDCB, 1, flags false false false false) := by decide

/-- T109 -/
theorem test_neg_keeps_flags :
    seen 1 (after (stateAt 0 [(1, 0x0000), (2, 0x0001)] false true false false) 0x4A12) = some (0xFFFF, 1, flags false true false false) := by decide

/-- T108 -/
theorem test_neg_of_8000 :
    seen 1 (after (stateAt 0 [(1, 0x0000), (2, 0x8000)] false false false false) 0x4A12) = some (0x8000, 1, flags false false false false) := by decide

/-! ### Faults and the host -/

/-- T130: an empty image. -/
theorem test_empty_image_faults : step State.reset = .next (State.reset.raise .fetchOutOfRange none) := rfl

/-- 95_test_vectors.md section 6: an unassigned word. -/
theorem test_unassigned_word_faults : (after (stateAt 1 [(1, 1)] false false false false) 0x4B00).map (fun t => (t.run, t.fault)) =
    some (.faulted, some { cause := .illegalInstruction, faultPc := 1#16, faultWord := some 0x4B00#16 }) := by decide

/-- 70_reset_and_hazards.md R280, R281: reset keeps the image and clears the rest. -/
theorem test_hostReset :
    hostReset ({ withWord (stateAt 3 [(1, 7)] false true false false) 5 6 with imem := [0x1051#16], run := .halted } : State) =
      { State.reset with imem := [0x1051#16] } := by decide

/-- 70_reset_and_hazards.md R284: no load while the engine runs. -/
theorem test_hostLoad_refused_in_running : hostLoad [0x0000#16] State.reset = none := by decide

/-! ### The assembler and the image -/

/-- The words of a program, if it assembles. -/
def words (program : String) : Option (List Nat) :=
  match assemble program.toList with
  | .ok ws => some (ws.map BitVec.toNat)
  | .error _ => none

/-- The error of a program, if it does not. -/
def errorOf (program : String) : Option (AsmErrorKind × Nat) :=
  match assemble program.toList with
  | .ok _ => none
  | .error e => some (e.kind, e.line)

/-- E5. -/
theorem test_assemble_labels :
    words "; demo\nli r1,1\n:a\n; comment between\n:b\nli r2,:a\nli r3,:b\nhalt\n:end\n" =
      some [0x1011, 0x1012, 0x1013, 0x0000] := by decide

/-- T140, T141. -/
theorem test_assemble_spellings :
    words "add r1,r2\nadd r1, r2\nadd 1 2\nld r1,(r2)\nld r1,r2" = some [0x4412, 0x4412, 0x4412, 0x8012, 0x8012] := by decide

/-- T142. -/
theorem test_assemble_radices :
    words "li r1,0xff\nli r1,0b11111111\nli r1,0o377\nli r1,255" = some [0x1FF1, 0x1FF1, 0x1FF1, 0x1FF1] := by decide

/-- T143 to T151 and E10: the errors. -/
theorem test_assemble_errors :
    ["li r1,256", "li r1,-1", "li r1,0x1G", "li r1,:nowhere", "jpq r1", "ADD r1,r2", "add r1", "nop", "add r1,r2 ; comment",
      "halt\njpz r16"].map errorOf =
      [some (.rangeError, 1), some (.parseError, 1), some (.parseError, 1), some (.labelError, 1),
       some (.unknownInstruction, 1), some (.unknownInstruction, 1), some (.parseError, 1), some (.parseError, 1),
       some (.parseError, 1), some (.rangeError, 2)] := by decide

/-- T153, with the advisory duplicate on line 5. -/
theorem test_duplicate_label :
    resolveLabel ["halt".toList, ":x".toList, "halt".toList, "halt".toList, ":x".toList] ":x".toList = some 1 ∧
    advisoryDuplicates ["halt".toList, ":x".toList, "halt".toList, "halt".toList, ":x".toList] ":x".toList = [5] := by decide

/-- The image text of P2. -/
theorem test_renderImage :
    renderImage [0x1101#16, 0x1AB2#16, 0xA012#16, 0x1083#16, 0x4623#16, 0x8041#16, 0x4124#16, 0xA012#16, 0x4823#16, 0x0000#16] =
      "v2.0 raw\n1101 1ab2 a012 1083 4623 8041 4124 a012\n4823 0000\n".toList := by decide

/-- 30_encoding.md R140: a reader accepts hex digits in either case. -/
theorem test_readImage_either_case :
    readImage "v2.0 raw\n1AB2 1ab2\n".toList = some [0x1AB2#16, 0x1AB2#16] := by decide

/-! ### Witnesses: the hypotheses of the statements are met -/

/-- A running state that holds one instruction, with the flags `0100`. -/
def running (w : Nat) : State := (stateAt 0 [(1, 0x0010), (2, 0x00AB)] false true false false).withFetchWord 16 w

/-- FormatFieldsAreDecoded, EncodeOfDecode: words that decode, one of each format (every clause: the `test_decode_…`
theorems). -/
theorem witness_words_that_decode :
    decode 0x0000#16 = .ok .halt ∧ decode 0x1FFF#16 = .ok (.li 15 255) ∧ decode 0x80F0#16 = .ok (.ld 15 0) ∧
    decode 0xC00F#16 = .ok (.jp 15) ∧ decode 0xF07F#16 = .ok (.jpno 15) := by decide

theorem witness_OpcodeMapAgreesWithDecoder :
    (Instr.row (.add 0 0) ∈ opcodeMap ∧ (Instr.row (.add 0 0)).spells 0x44FF#16 = true) ∧
    decode 0x44FF#16 = .ok (.add 15 15) ∧ decode 0x4B00#16 = .error .unassigned := by decide

theorem witness_StepRunsDecodedInstruction :
    (running 0x4412).run = .running ∧ (running 0x4412).iFetch (running 0x4412).pc = some 0x4412#16 ∧
    decode 0x4412#16 = .ok (.add 1 2) := by decide

/-- The pc is equal to `PROG_LEN`, the first address with no word. -/
theorem witness_FetchPastEndEntersFault : State.reset.run = .running ∧ State.reset.progLen ≤ State.reset.pc.toNat := by decide

theorem witness_UnassignedWordEntersFault :
    (running 0x8100).run = .running ∧ (running 0x8100).iFetch (running 0x8100).pc = some 0x8100#16 ∧
    decode 0x8100#16 = .error .unassigned := by decide

theorem witness_StepsExistOnlyInRunning :
    ({ State.reset with run := .halted } : State).run = .halted ∧ (State.reset.raise .fetchOutOfRange none).run = .faulted ∧
    (running 0x4412).run = .running := by decide

/-- Both clauses: a fetch with no word and an unassigned word. -/
theorem witness_FaultEntryIsPrecise :
    (step State.reset = .next (State.reset.raise .fetchOutOfRange none) ∧
      (State.reset.raise .fetchOutOfRange none).run = .faulted) ∧
    (step (running 0x8100) = .next ((running 0x8100).raise .illegalInstruction (some 0x8100#16)) ∧
      ((running 0x8100).raise .illegalInstruction (some 0x8100#16)).run = .faulted) := ⟨⟨rfl, rfl⟩, ⟨rfl, rfl⟩⟩

theorem witness_OnlyHaltHalts :
    step (running 0x0000) = .next { running 0x0000 with run := .halted } ∧
    ({ running 0x0000 with run := .halted } : State).run = .halted := ⟨rfl, rfl⟩

/-- The highest pc the statement takes. -/
theorem witness_PcAdvancesByOne :
    Instr.jpz 1 ≠ .halt ∧ jumpTaken (.jpz 1) (stateAt 65534 [] false false false false) = false ∧
    destination (.jpz 1) ≠ some pcReg ∧ (stateAt 65534 [] false false false false).pc.toNat < 65535 ∧
    Instr.add 14 1 ≠ .halt ∧ jumpTaken (.add 14 1) State.reset = false ∧ destination (.add 14 1) ≠ some pcReg := by decide

/-- Every clause: each flag set and each flag clear. -/
theorem witness_TakenJumpSetsPc :
    (stateAt 0 [] true true true true).flags = flags true true true true ∧
    (stateAt 0 [] false false false false).flags = flags false false false false := by decide

theorem witness_StepKeepsInstructionMemory : ∃ t, step (running 0xA012) = .next t := ⟨_, rfl⟩

/-- Both clauses, the first at the largest immediate, the second just above it. -/
theorem witness_LiImmediateIsZeroExtended :
    (field 0x1FFE#16 12 4 = 0b0001#4 ∧ regField 0x1FFE#16 0 ≠ pcReg) ∧
    (registerOperand "r1".toList = .ok 1 ∧ parseNumber "256".toList = some 256 ∧ 255 < 256) := by decide

/-- StStoresWord, StParenthesesMarkTheValue, EffectiveAddressIsWholeRegister, ReadingPcReadsOwnAddress,
MemoryReadsLatestWrite: a canonical memory that lists a word. -/
theorem witness_memWf : memWf (withWord State.reset 0xFFFF 0x1234).mem = true := by decide

theorem witness_EffectiveAddressIsWholeRegister :
    (14 : Reg) ≠ pcReg ∧ (0 : Reg) ≠ 14 ∧ (0 : Reg) ≠ pcReg ∧ memWf (running 0xA012).mem = true := by decide

/-- Both clauses, the second at the highest pc it takes. -/
theorem witness_JpzJumpsIffZero :
    (stateAt 0 [] false true false false).flags.z = true ∧ (stateAt 65534 [] false false false false).flags.z = false ∧
    (stateAt 65534 [] false false false false).pc.toNat < 65535 := by decide

/-- A state that one step of a run reaches. -/
theorem witness_CarryJumpsAreSettled :
    ∃ t, step (hostReset (running 0x1051)) = .next t ∧ Reaches (hostReset (running 0x1051)) t :=
  ⟨_, rfl, .tail (.refl _) rfl⟩

/-- Every clause: a canonical memory, a destination beside the pc, each flag set and each flag clear. -/
theorem witness_ReadingPcReadsOwnAddress :
    (14 : Reg) ≠ pcReg ∧ memWf (running 0xA0F0).mem = true ∧
    (stateAt 65535 [] true true true true).flags = flags true true true true ∧
    (stateAt 65535 [] false false false false).flags = flags false false false false := by decide

/-- A register that is not the destination of an instruction that completes. -/
theorem witness_RegisterFrame :
    ∃ t, exec (.add 1 2) (running 0x4412) = .next t ∧ destination (.add 1 2) ≠ some 2 ∧ (2 : Reg) ≠ pcReg :=
  ⟨_, rfl, by decide, by decide⟩

/-- A byte beside the stored word, and any byte for a form that stores nothing. -/
theorem witness_MemoryFrame :
    (∃ t, exec (.st 1 2) (running 0xA012) = .next t ∧
      ∀ a, storeAddress (.st 1 2) (running 0xA012) = some a → 0x0022 ≠ highCell a ∧ 0x0022 ≠ lowCell a) ∧
    (∃ t, exec (.ld 1 2) (running 0x8012) = .next t ∧
      ∀ a, storeAddress (.ld 1 2) (running 0x8012) = some a → 0 ≠ highCell a ∧ 0 ≠ lowCell a) := by
  refine ⟨⟨_, rfl, ?_⟩, ⟨_, rfl, ?_⟩⟩
  · intro a h
    injection h with h
    subst h
    decide
  · intro a h
    cases h

theorem witness_FlagFrame : ∃ t, exec (.not 1 2) (running 0x4912) = .next t ∧ writesFlags (.not 1 2) = false :=
  ⟨_, rfl, rfl⟩

theorem witness_OnlyConditionalJumpsReadFlags :
    ∃ t, readsFlags (.add 1 2) = false ∧ exec (.add 1 2) (running 0x4412) = .next t ∧ writesFlags (.add 1 2) = true :=
  ⟨_, rfl, rfl, rfl⟩

theorem witness_RunStateIsInvisible : ∃ t, exec (.add 1 2) (running 0x4412) = .next t := ⟨_, rfl⟩

theorem witness_MemoryReadsLatestWrite : (0xFFFF#16 ≠ 0x0000#16) ∧ memWf State.reset.mem = true := by decide

theorem witness_CanonicalMemoriesAreEqual :
    memWf (memWrite [] 0xFFFF#16 0x1234#16) = true ∧
    ∀ a : Word, memRead (memWrite [] 0xFFFF#16 0x1234#16) a = memRead (memWrite [] 0xFFFF#16 0x1234#16) a :=
  ⟨by decide, fun _ => rfl⟩

theorem witness_ResetClearsRegistersAndFlags :
    State.reset ∈ [State.reset, hostReset (running 0x4412)] ∧
    hostReset (running 0x4412) ∈ [State.reset, hostReset (running 0x4412)] := ⟨by simp, by simp⟩

/-- All three clauses, at the greatest length that loads and the least that does not. -/
theorem witness_HostLoadsOnlyOutsideRunning :
    State.reset.run = .running ∧ 65536 < (List.replicate 65537 0x0000#16).length ∧
    ({ State.reset with run := .halted } : State).run ≠ .running ∧ (List.replicate 65536 0x0000#16).length ≤ 65536 := by
  simp only [List.length_replicate]
  decide

theorem witness_CarryIsNeverSet :
    ∃ t, exec (.nop 1 2) (stateAt 0 [] true false false false) = .next t ∧ writesFlags (.nop 1 2) = true ∧
      Reaches (hostReset t) (hostReset t) := ⟨_, rfl, rfl, .refl _⟩

/-- A state in the invariant with a step: it runs `st r1, (r2)` from a state whose `Z` is set. -/
theorem witness_EveryStepKeepsInvariant : (running 0xA012).Inv ∧ ∃ t, step (running 0xA012) = .next t :=
  ⟨⟨by decide, by decide, rfl, by decide, by decide⟩, ⟨_, rfl⟩⟩

theorem witness_InvariantHoldsAtReset :
    (running 0x4412).imem.length ≤ 65536 ∧
    hostLoad [0x4412#16] { State.reset with run := .halted } =
      some { State.reset with run := .halted, imem := [0x4412#16] } := by decide

theorem witness_JumpToItselfHangs :
    (running 0xC00F).run = .running ∧ (running 0xC00F).iFetch (running 0xC00F).pc = some 0xC00F#16 := by decide

/-- Both clauses: a comment and an instruction before a label, then a second label with a comment between. -/
theorem witness_LabelResolvesToExecutableCount :
    classify " :a".toList = .label ":a".toList ∧ classify ":b".toList = .label ":b".toList ∧
    (∀ x ∈ ["; c".toList, "halt".toList], trim x ≠ trim " :a".toList) ∧
    (∀ x ∈ ["; c".toList, "halt".toList] ++ " :a".toList :: ["; d".toList], trim x ≠ trim ":b".toList) ∧
    (∀ x ∈ ["; d".toList], isExecutable x = false) := by decide

theorem witness_FirstDeclarationWins :
    classify ":a".toList = .label ":a".toList ∧ (∀ x ∈ ["halt".toList], trim x ≠ ":a".toList) ∧
    trim " :a ".toList = ":a".toList := by decide

/-- Both clauses with hypotheses: an unresolved label, and a program with such a line. -/
theorem witness_UnresolvedLabelIsFatal :
    registerOperand "r1".toList = .ok 1 ∧ resolveLabel ["li r1,:b".toList] ":b".toList = none ∧
    "li r1,:b".toList ∈ ["li r1,:b".toList] ∧ classify "li r1,:b".toList = .executable "li r1,:b".toList ∧
    assembleTokens ["li r1,:b".toList] (tokens "li r1,:b".toList) = .error .labelError := by decide

/-- Both clauses, at the largest value that fits and the least that does not. -/
theorem witness_NumericImmediateRange :
    registerOperand "r15".toList = .ok 15 ∧ parseNumber "0xff".toList = some 255 ∧ parseNumber "256".toList = some 256 := by
  decide

/-- Every clause, at the least number out of range and the greatest in range. -/
theorem witness_RegisterOperandRange :
    parseDigits 10 (stripLetter (stripParens (stripComma "(r16),".toList))) = some 16 ∧
    parseDigits 10 "16".toList = some 16 ∧ 15 < 16 ∧ registerOperand "r16".toList = .error .rangeError ∧ registerOperand "r15".toList = .ok 15 := by decide

theorem witness_AssembledImageIsInProgramOrder :
    assemble ":a\nli r1,:a\nhalt".toList = .ok [0x1001#16, 0x0000#16] ∧
    ((splitLines ":a\nli r1,:a\nhalt".toList).filter isExecutable)[1]? = some "halt".toList := by decide

end Sys2Proof.Tests
end

section
/-! The flags of an instruction, the carry along a run, and the state reset gives. -/

namespace Sys2Proof.Machine

/-! ### Reset -/

@[simp] theorem reset_pc : State.reset.pc = 0x0000#16 := reset_reg pcReg

@[simp] theorem hostReset_reg (s : State) (r : Reg) : (hostReset s).reg r = 0x0000#16 := reset_reg r

@[simp] theorem hostReset_pc (s : State) : (hostReset s).pc = 0x0000#16 := hostReset_reg s pcReg

/-- Settles O47: each of the two states by the reset laws of its fields. -/
theorem resetClearsRegistersAndFlags : Obligations.ResetClearsRegistersAndFlags := by
  unfold Obligations.ResetClearsRegistersAndFlags
  intro s t ht
  obtain rfl | rfl : t = State.reset ∨ t = hostReset s := by simpa using ht
  · exact ⟨reset_reg, reset_pc, reset_run, rfl, rfl, rfl, rfl⟩
  · exact ⟨hostReset_reg s, hostReset_pc s, hostReset_run s, rfl, rfl, rfl, rfl⟩

/-! ### The flags each shared operation leaves -/

section
variable {s t : State}

theorem finish_flags {c : Completion} (h : finish c s = .next t) : t.flags = s.flags := by
  obtain ⟨-, e⟩ | ⟨-, e⟩ | ⟨-, e⟩ := finish_cases c s <;> cases e.symm.trans h <;> rfl

theorem writeResultFlags_flags {d : Reg} {v : Word} {f : Flags} (h : writeResultFlags d v f s = .next t) :
    t.flags = f := by
  obtain ⟨u, hu, hw⟩ := writeResultFlags_spec d v f s
  cases hu.symm.trans h
  exact hw.flags

theorem writeResult_flags {d : Reg} {v : Word} (h : writeResult d v s = .next t) : t.flags = s.flags :=
  writeResultFlags_flags h

theorem takeJump_flags {rt : Reg} (h : takeJump rt s = .next t) : t.flags = s.flags := by
  obtain ⟨u, hu, hj⟩ := takeJump_spec rt s
  cases hu.symm.trans h
  exact hj.flags

theorem jumpIf_flags {cc : FlagCond} {rt : Reg} (h : jumpIf cc rt s = .next t) : t.flags = s.flags := by
  obtain ⟨u, hu, hj⟩ := jumpIf_spec cc rt s
  cases hu.symm.trans h
  exact hj.flags

/-! ### The flags each instruction leaves (10_state.md R41) -/

/-- The six flag writers write a result together with flags whose carry is clear. -/
theorem exec_eq_writeResultFlags {i : Instr} (hi : writesFlags i = true) (s : State) :
    ∃ d v f, exec i s = writeResultFlags d v f s ∧ f.c = false := by
  cases i with
  | nop d r | or d r | and d r | xor d r | add d r | sub d r => exact ⟨d, _, _, rfl, rfl⟩
  | halt | li | ld | st | jp => cases hi
  | jpc | jpnc | jpz | jpnz | jps | jpns | jpo | jpno => cases hi
  | shl | shr | ashr | not | neg => cases hi

/-- The other instructions leave the flags as they were. -/
theorem exec_keeps_flags {i : Instr} (hi : writesFlags i = false) (h : exec i s = .next t) : t.flags = s.flags := by
  cases i with
  | halt => exact finish_flags (c := .halted) h
  | st => exact (finish_flags (c := .next) h :)
  | li | ld | shl | shr | ashr | not | neg => exact writeResult_flags h
  | jp => exact takeJump_flags h
  | jpc | jpnc | jpz | jpnz | jps | jpns | jpo | jpno => exact jumpIf_flags h
  | nop | or | and | xor | add | sub => cases hi

theorem exec_clears_carry {i : Instr} (hi : writesFlags i = true) (h : exec i s = .next t) : t.flags.c = false := by
  obtain ⟨d, v, f, e, hf⟩ := exec_eq_writeResultFlags hi s
  rw [writeResultFlags_flags (e.symm.trans h)]
  exact hf

theorem exec_carry {i : Instr} (h : exec i s = .next t) : t.flags.c = s.flags.c ∨ t.flags.c = false := by
  cases hi : writesFlags i with
  | false => exact .inl (congrArg Flags.c (exec_keeps_flags hi h))
  | true => exact .inr (exec_clears_carry hi h)

/-! ### Steps and runs -/

/-- A step that answers a next state enters a fault or executes an instruction. -/
theorem step_eq_next (h : step s = .next t) : (∃ c w, t = s.raise c w) ∨ ∃ i, exec i s = .next t := by
  obtain ⟨-, -, e⟩ | ⟨w, -, -, -, -, e⟩ | ⟨-, i, -, -, -, e⟩ | ⟨-, e⟩ | ⟨-, e⟩ := step_cases s
  · cases e.symm.trans h
    exact .inl ⟨_, _, rfl⟩
  · cases e.symm.trans h
    exact .inl ⟨_, _, rfl⟩
  · exact .inr ⟨i, e.symm.trans h⟩
  · cases e.symm.trans h
  · cases e.symm.trans h

theorem step_keeps_clear_carry (h : step s = .next t) (hs : s.flags.c = false) : t.flags.c = false := by
  obtain ⟨c, w, rfl⟩ | ⟨i, hi⟩ := step_eq_next h
  · exact hs
  · obtain hc | hc := exec_carry hi
    · exact hc.trans hs
    · exact hc

/-- What every step keeps holds along a run. -/
theorem Reaches.preserves {P : State → Prop} (hP : ∀ u v, step u = .next v → P u → P v) (h : Reaches s t) (hs : P s) :
    P t := by
  induction h with
  | refl => exact hs
  | tail _ hstep ih => exact hP _ _ hstep ih

end

/-- Settles O50: no arm of `exec` sets the carry, so a step keeps it clear, and reset clears it. -/
theorem carryIsNeverSet : Obligations.CarryIsNeverSet := by
  unfold Obligations.CarryIsNeverSet
  refine ⟨fun _ _ _ h => exec_carry h, fun _ _ _ h hi => exec_clears_carry hi h, fun s₀ t h => ?_⟩
  exact h.preserves (P := fun u => u.flags.c = false) (fun _ _ => step_keeps_clear_carry) rfl

end Sys2Proof.Machine
end

section
/-! The data memory as words (20_memory.md R63): one read law per kind of write, and the writes of a whole run. -/

namespace Sys2Proof.Machine

theorem memRead_reset (a : Word) : memRead State.reset.mem a = 0#16 := by
  rw [memRead, reset_mem, readByte_nil, readByte_nil]
  rfl

theorem memRead_memWrite_same {m : List Host.Cell} (a v : Word) (h : memWf m = true) :
    memRead (memWrite m a v) a = v := by
  rw [memRead, readByte_memWrite_high a v h, readByte_memWrite_low a v h, halves_append]

/-- Distinct words share no cell, so a write to one keeps both cells of the other, whatever the list. -/
theorem memRead_memWrite_of_ne (m : List Host.Cell) {a b : Word} (v : Word) (h : b ≠ a) :
    memRead (memWrite m a v) b = memRead m b := by
  have hn : b.toNat ≠ a.toNat := mt BitVec.eq_of_toNat_eq h
  rw [memRead, memRead]
  congr 1 <;> apply readByte_memWrite_of_ne <;> simp only [highCell, lowCell] <;> omega

theorem memRead_memWrite {m : List Host.Cell} (a b v : Word) (h : memWf m = true) :
    memRead (memWrite m a v) b = if b = a then v else memRead m b := by
  split
  next e => rw [e, memRead_memWrite_same a v h]
  next e => exact memRead_memWrite_of_ne m v e

/-! ### The writes of a run, in order -/

theorem memWf_foldl_memWrite {m : List Host.Cell} (ws : List (Word × Word)) (h : memWf m = true) :
    memWf (ws.foldl (fun m p => memWrite m p.1 p.2) m) = true := by
  induction ws generalizing m with
  | nil => exact h
  | cons p ws ih => exact ih (memWf_memWrite p.1 p.2 h)

/-- After a list of writes a word is the latest value written to it, or what it was before them: the last write is the
first one that the search through the reversed list meets. -/
theorem memRead_foldl_memWrite {m : List Host.Cell} (ws : List (Word × Word)) (a : Word) (h : memWf m = true) :
    memRead (ws.foldl (fun m p => memWrite m p.1 p.2) m) a =
      ((ws.reverse.find? (fun p => p.1 == a)).map Prod.snd).getD (memRead m a) := by
  induction ws using List.reverseRecOn with
  | nil => rfl
  | append_singleton ws p ih =>
    rw [List.foldl_append, List.foldl_cons, List.foldl_nil,
      memRead_memWrite p.1 a p.2 (memWf_foldl_memWrite ws h), List.reverse_concat]
    split
    next e => rw [List.find?_cons_of_pos (by simp [e]), Option.map_some, Option.getD_some]
    next e => rw [List.find?_cons_of_neg (by simp [Ne.symm e]), ih]

/-- Settles O45: the writes of a run start from the canonical memory of reset, where every word is 0. -/
theorem memoryReadsLatestWrite : Obligations.MemoryReadsLatestWrite := by
  unfold Obligations.MemoryReadsLatestWrite
  refine ⟨fun ws a => ?_, fun m _ _ v h => memRead_memWrite_of_ne m v h, fun _ a v h => memRead_memWrite_same a v h⟩
  rw [memRead_foldl_memWrite ws a memWf_reset, memRead_reset]

end Sys2Proof.Machine
end

section
/-! The decoder inverted, and the fields of each format as it reads them (30_encoding.md R92 to R101). -/

namespace Sys2Proof

/-- Every three-bit code is the flag-select code of a condition (30_encoding.md R99). -/
theorem FlagCond.exists_code_eq (b : BitVec 3) : ∃ cc : FlagCond, b = cc.code := by
  have codes : ∀ b : BitVec 3, ∃ cc ∈ [carry, noCarry, zero, notZero, sign, notSign, overflow, noOverflow],
      b = cc.code := by decide
  obtain ⟨cc, -, h⟩ := codes b
  exact ⟨cc, h⟩

/-- A tag with an ALU operation is one of the eleven of the spec's list, with the operation at its place. -/
theorem aluOf_eq_ok {tag : BitVec 8} {dst src : Reg} {i : Instr} (h : aluOf tag dst src = .ok i) :
    ∃ p ∈ [(0x40#8, Instr.nop), (0x41#8, .or), (0x42#8, .and), (0x43#8, .xor), (0x44#8, .add), (0x45#8, .sub),
        (0x46#8, .shl), (0x47#8, .shr), (0x48#8, .ashr), (0x49#8, .not), (0x4A#8, .neg)],
      tag = p.1 ∧ i = p.2 dst src := by
  unfold aluOf at h
  repeat' split at h
  all_goals cases h
  all_goals exact ⟨(tag, _), by simp [*], rfl, rfl⟩

/-- A word that decodes meets the test of one format, and its instruction is made of the fields of that format. -/
theorem decode_eq_ok {w : Word} {i : Instr} (h : decode w = .ok i) :
    (w = 0x0000#16 ∧ i = .halt) ∨
    (field w 12 4 = 0b0001#4 ∧ i = .li (regField w 0) (field w 4 8)) ∨
    (field w 8 8 = 0x80#8 ∧ i = .ld (regField w 4) (regField w 0)) ∨
    (field w 8 8 = 0xA0#8 ∧ i = .st (regField w 4) (regField w 0)) ∨
    (field w 4 12 = 0xC00#12 ∧ i = .jp (regField w 0)) ∨
    (field w 7 9 = 0b111100000#9 ∧ i = condJumpOf (field w 4 3) (regField w 0)) ∨
    aluOf (field w 8 8) (regField w 4) (regField w 0) = .ok i := by
  unfold decode at h
  iterate 6
    split at h
    next test => cases h; exact .inl ⟨test, rfl⟩
    right
  exact h

/-- Settles O2: the cases are the formats; a conditional jump is the one its code selects. -/
theorem formatFieldsAreDecoded : Obligations.FormatFieldsAreDecoded := by
  unfold Obligations.FormatFieldsAreDecoded
  intro w i h
  obtain ⟨hw, rfl⟩ | ⟨ht, rfl⟩ | ⟨-, rfl⟩ | ⟨-, rfl⟩ | ⟨ht, rfl⟩ | ⟨ht, rfl⟩ | ha := decode_eq_ok h
  · exact hw
  · exact ⟨ht, rfl, rfl⟩
  · exact ⟨rfl, rfl⟩
  · exact ⟨rfl, rfl⟩
  · exact ⟨ht, rfl⟩
  · obtain ⟨cc, hcc⟩ := FlagCond.exists_code_eq (field w 4 3)
    rw [hcc]
    cases cc <;> exact ⟨ht, rfl, rfl⟩
  · obtain ⟨p, hp, -, rfl⟩ := aluOf_eq_ok ha
    fin_cases hp <;> exact ⟨rfl, rfl⟩

/-- Format I is tested before every format but Z, and the word of format Z has no tag of format I. -/
theorem decode_of_tagI {w : Word} (h : field w 12 4 = 0b0001#4) :
    decode w = .ok (.li (regField w 0) (field w 4 8)) := by
  have hw : w ≠ 0x0000#16 := by
    rintro rfl
    exact absurd h (by decide)
  rw [decode, if_neg hw, if_pos h]

end Sys2Proof
end

section
/-! The immediate operand of `li`: a number (30_encoding.md R97, R126) or a label (R131, R133). -/

namespace Sys2Proof.Machine

/-! ### The immediate operand -/

/-- Zero extension keeps the number of an immediate. -/
theorem immediate_toNat (imm8 : BitVec 8) : (immediate imm8).toNat = imm8.toNat :=
  BitVec.toNat_setWidth_of_le (by decide)

theorem immediateOfNat_of_le {n : Nat} (h : n ≤ 255) : immediateOfNat n = .ok (BitVec.ofNat 8 n) :=
  if_pos (decide_eq_true h)

theorem immediateOfNat_of_gt {n : Nat} (h : 255 < n) : immediateOfNat n = .error .rangeError :=
  if_neg (mt of_decide_eq_true (Nat.not_le_of_lt h))

/-- A token that reads as a number is no label, so its number is the immediate. -/
theorem immediateOperand_of_number (lines : List Text) {tok : Text} {n : Nat} (h : parseNumber tok = some n) :
    immediateOperand lines tok = immediateOfNat n := by
  unfold immediateOperand
  split
  next name => cases (parseNumber_colon name).symm.trans h
  next => simp only [h]

theorem immediateOperand_of_unresolved {lines : List Text} {name : Text}
    (h : resolveLabel lines (':' :: name) = none) : immediateOperand lines (':' :: name) = .error .labelError := by
  simp only [immediateOperand, h]

/-! ### Lines of `li` -/

section
variable {lines : List Text} {r v : Text} {rd : Reg}

/-- With a register that is read, a line of `li` is its immediate operand's outcome. -/
theorem assembleTokens_li (hr : registerOperand r = .ok rd) :
    assembleTokens lines ["li".toList, r, v] = (immediateOperand lines v).map (.li rd) := by
  rw [assembleTokens_of_lookup (form := .registerImmediate .li) lines [r, v] rfl]
  simp only [assembleOperands, hr]
  cases immediateOperand lines v <;> rfl

theorem assembleTokens_li_of_le {n : Nat} (hr : registerOperand r = .ok rd) (hv : parseNumber v = some n)
    (hn : n ≤ 255) : assembleTokens lines ["li".toList, r, v] = .ok (.li rd (BitVec.ofNat 8 n)) := by
  rw [assembleTokens_li hr, immediateOperand_of_number lines hv, immediateOfNat_of_le hn]
  rfl

theorem assembleTokens_li_of_gt {n : Nat} (hr : registerOperand r = .ok rd) (hv : parseNumber v = some n)
    (hn : 255 < n) : assembleTokens lines ["li".toList, r, v] = .error .rangeError := by
  rw [assembleTokens_li hr, immediateOperand_of_number lines hv, immediateOfNat_of_gt hn]
  rfl

end

/-- Settles O57: the two ranges of a number, and a number up to 255 is not changed by eight bits. -/
theorem numericImmediateRange : Obligations.NumericImmediateRange := by
  unfold Obligations.NumericImmediateRange
  intro lines r v rd n hr hv
  refine ⟨fun hn => ⟨_, assembleTokens_li_of_le hr hv hn, ?_⟩, assembleTokens_li_of_gt hr hv⟩
  exact Nat.mod_eq_of_lt (by omega)

/-- Settles O22: the decoder reads the immediate from bits 11..4, and `li` leaves it zero-extended in its register. -/
theorem liImmediateIsZeroExtended : Obligations.LiImmediateIsZeroExtended := by
  unfold Obligations.LiImmediateIsZeroExtended
  refine ⟨fun w s hw => ?_, fun lines r v rd n hr hv hn => assembleTokens_li_of_gt hr hv hn⟩
  obtain ⟨t, ht, hres⟩ := writeResult_spec (regField w 0) (immediate (field w 4 8)) s
  refine ⟨_, t, decode_of_tagI hw, ht, fun hd => ?_⟩
  rw [hres.result hd, immediate_toNat]
  exact field_toNat w 4 8

/-! ### Labels -/

/-- Lines before the first declaration of a label count as far as they are executable. -/
theorem resolveFrom_append {tok : Text} {pre : List Text} (c : Nat) (rest : List Text)
    (h : ∀ x ∈ pre, trim x ≠ tok) :
    resolveFrom tok c (pre ++ rest) = resolveFrom tok (c + pre.countP isExecutable) rest := by
  induction pre generalizing c with
  | nil => rfl
  | cons x pre ih =>
    obtain ⟨hx, hpre⟩ := List.forall_mem_cons.mp h
    rw [List.cons_append, resolveFrom, if_neg hx, ih _ hpre, List.countP_cons]
    congr 1
    split <;> omega

/-- A label declared first after `pre` resolves to the number of executable lines of `pre`. -/
theorem resolveLabel_of_declared {pre post : List Text} {l tok : Text} (hpre : ∀ x ∈ pre, trim x ≠ tok)
    (hl : trim l = tok) : resolveLabel (pre ++ l :: post) tok = some (pre.countP isExecutable) := by
  rw [resolveLabel, resolveFrom_append 0 _ hpre, resolveFrom, if_pos hl, Nat.zero_add]

theorem not_isExecutable_of_label {l name : Text} (h : classify l = .label name) : isExecutable l = false := by
  simp only [isExecutable, h]

/-- Settles O54: both labels resolve to counts, which differ by the executable lines between them. -/
theorem labelResolvesToExecutableCount : Obligations.LabelResolvesToExecutableCount := by
  unfold Obligations.LabelResolvesToExecutableCount
  refine ⟨fun pre post l name hl hpre => ?_, fun pre mid post l q name name' hl hq hpre hall hmid => ?_⟩
  · obtain ⟨rfl, -⟩ := trim_of_label hl
    exact resolveLabel_of_declared hpre rfl
  · obtain ⟨rfl, -⟩ := trim_of_label hl
    obtain ⟨rfl, -⟩ := trim_of_label hq
    have none_between : (l :: mid).countP isExecutable = 0 := by
      rw [List.countP_eq_zero]
      simpa [not_isExecutable_of_label hl] using hmid
    rw [resolveLabel_of_declared hall rfl, List.countP_append, none_between, Nat.add_zero, List.append_assoc,
      List.cons_append, resolveLabel_of_declared hpre rfl]

theorem resolveFrom_eq_none {tok : Text} (c : Nat) {lines : List Text} :
    resolveFrom tok c lines = none ↔ ∀ x ∈ lines, trim x ≠ tok := by
  induction lines generalizing c with
  | nil => simp [resolveFrom]
  | cons l ls ih =>
    rw [List.forall_mem_cons, resolveFrom]
    split
    next hl => simp [hl]
    next hl => simp [hl, ih]

/-! ### Programs, line by line -/

/-- A line that holds no instruction adds none. -/
theorem assembleFrom_cons_of_not_isExecutable (lines : List Text) (n : Nat) {l : Text} (ls : List Text)
    (h : isExecutable l = false) : assembleFrom lines n (l :: ls) = assembleFrom lines (n + 1) ls := by
  unfold isExecutable at h
  split at h
  next => cases h
  next hl =>
    rw [assembleFrom]
    split
    next t ht => exact absurd ht (hl t)
    next => rfl

/-- An executable line assembles exactly to its instruction before those of the later lines. -/
theorem assembleFrom_cons_eq_ok {lines : List Text} {n : Nat} {l t : Text} {ls : List Text} {is : List Instr}
    (h : classify l = .executable t) :
    assembleFrom lines n (l :: ls) = .ok is ↔
      ∃ i js, assembleTokens lines (tokens t) = .ok i ∧ assembleFrom lines (n + 1) ls = .ok js ∧ is = i :: js := by
  simp only [assembleFrom, h]
  cases assembleTokens lines (tokens t) with
  | error k => simp
  | ok i => cases assembleFrom lines (n + 1) ls <;> simp [eq_comm]

/-- In a program that assembles, every executable line does. -/
theorem assembleTokens_of_assembleFrom_eq_ok {lines ls : List Text} {n : Nat} {is : List Instr} {l t : Text}
    (h : assembleFrom lines n ls = .ok is) (hl : l ∈ ls) (ht : classify l = .executable t) :
    ∃ i, assembleTokens lines (tokens t) = .ok i := by
  induction ls generalizing n is with
  | nil => cases hl
  | cons x ls ih =>
    cases hx : classify x with
    | executable u =>
      obtain ⟨i, js, hi, hjs, -⟩ := (assembleFrom_cons_eq_ok hx).mp h
      obtain rfl | hl := List.mem_cons.mp hl
      · cases hx.symm.trans ht
        exact ⟨i, hi⟩
      · exact ih hjs hl
    | blank | comment | label =>
      rw [assembleFrom_cons_of_not_isExecutable _ _ _ (by simp only [isExecutable, hx])] at h
      obtain rfl | hl := List.mem_cons.mp hl
      · cases hx.symm.trans ht
      · exact ih h hl

/-- Settles O56: an unresolved label is the operand's error, and a program with a line in error does not assemble. -/
theorem unresolvedLabelIsFatal : Obligations.UnresolvedLabelIsFatal := by
  unfold Obligations.UnresolvedLabelIsFatal
  refine ⟨fun lines tok => resolveFrom_eq_none 0, fun lines r name rd hr hname => ?_, fun lines l t hl ht herr => ?_⟩
  · rw [assembleTokens_li hr, immediateOperand_of_unresolved hname]
    rfl
  · cases h : assembleInstrs lines with
    | error e => exact ⟨e, rfl⟩
    | ok is =>
      obtain ⟨i, hi⟩ := assembleTokens_of_assembleFrom_eq_ok h hl ht
      cases hi.symm.trans herr

end Sys2Proof.Machine
end

section
/-! The execution cycle (40_execution_cycle.md): the pc after an instruction, by the three ways it can complete. -/

namespace Sys2Proof.Machine

section
variable {i : Instr} {s : State}

/-! ### Instructions that jump (R157) -/

theorem takeJump_pc (rt : Reg) (s : State) : ∃ t, takeJump rt s = .next t ∧ t.pc = s.reg rt := by
  obtain ⟨t, ht, hj⟩ := takeJump_spec rt s
  exact ⟨t, ht, hj.pc⟩

theorem jumpIf_pc_of_holds (cc : FlagCond) (rt : Reg) (h : condHolds cc s.flags = true) :
    ∃ t, jumpIf cc rt s = .next t ∧ t.pc = s.reg rt := by
  obtain ⟨t, ht, hj⟩ := jumpIf_spec cc rt s
  exact ⟨t, ht, hj.pc.trans (if_pos h)⟩

theorem jumpIf_pc_of_not_holds {cc : FlagCond} (rt : Reg) (h : condHolds cc s.flags = false) :
    ∃ t, jumpIf cc rt s = .next t ∧ t.pc = s.pc + 1#16 := by
  obtain ⟨t, ht, hj⟩ := jumpIf_spec cc rt s
  exact ⟨t, ht, hj.pc.trans (if_neg (Bool.eq_false_iff.mp h))⟩

/-! ### Instructions that advance the pc (R155) -/

/-- An instruction with a destination register ends by writing its result there. -/
theorem exec_eq_writeResultFlags_of_destination {d : Reg} (hd : destination i = some d) (s : State) :
    ∃ v f, exec i s = writeResultFlags d v f s := by
  cases i with
  | li | ld => cases hd; exact ⟨_, s.flags, rfl⟩
  | nop | or | and | xor | add | sub => cases hd; exact ⟨_, _, rfl⟩
  | shl | shr | ashr | not | neg => cases hd; exact ⟨_, s.flags, rfl⟩
  | halt | st | jp => cases hd
  | jpc | jpnc | jpz | jpnz | jps | jpns | jpo | jpno => cases hd

theorem writeResultFlags_pc_of_ne {d : Reg} (v : Word) (f : Flags) (hd : d ≠ pcReg) :
    ∃ t, writeResultFlags d v f s = .next t ∧ t.pc = s.pc + 1#16 := by
  obtain ⟨t, ht, hw⟩ := writeResultFlags_spec d v f s
  exact ⟨t, ht, by rw [hw.pc, if_neg hd]⟩

/-- The forms without a destination that neither halt nor jump are `st` and a conditional jump that falls through. -/
theorem exec_pc_of_no_destination (hi : i ≠ .halt) (hj : jumpTaken i s = false) (hd : destination i = none) :
    ∃ t, exec i s = .next t ∧ t.pc = s.pc + 1#16 := by
  cases i with
  | halt => exact absurd rfl hi
  | st => exact ⟨_, rfl, pc_advancePc _⟩
  | jp => cases hj
  | jpc rt | jpnc rt | jpz rt | jpnz rt | jps rt | jpns rt | jpo rt | jpno rt => exact jumpIf_pc_of_not_holds rt hj
  | li | ld | nop | or | and | xor | add | sub | shl | shr | ashr | not | neg => cases hd

theorem exec_advances_pc (hi : i ≠ .halt) (hj : jumpTaken i s = false) (hd : destination i ≠ some pcReg) :
    ∃ t, exec i s = .next t ∧ t.pc = s.pc + 1#16 := by
  cases hdest : destination i with
  | none => exact exec_pc_of_no_destination hi hj hdest
  | some d =>
    obtain ⟨v, f, e⟩ := exec_eq_writeResultFlags_of_destination hdest s
    rw [e]
    exact writeResultFlags_pc_of_ne v f fun h => hd (h ▸ hdest)

/-! ### A step exists only in RUNNING (R151) -/

theorem run_of_step_eq_next {t : State} (h : step s = .next t) : s.run = .running := by
  obtain ⟨hr, -⟩ | ⟨-, -, hr, -⟩ | ⟨-, -, hr, -⟩ | ⟨-, e⟩ | ⟨-, e⟩ := step_cases s
  · exact hr
  · exact hr
  · exact hr
  · cases e.symm.trans h
  · cases e.symm.trans h

end

/-- Settles O17: below 0xFFFF the advance mod 2^16 is an advance by one. -/
theorem pcAdvancesByOne : Obligations.PcAdvancesByOne := by
  unfold Obligations.PcAdvancesByOne
  intro i s hi hj hd hlt
  obtain ⟨t, ht, hpc⟩ := exec_advances_pc hi hj hd
  refine ⟨t, ht, ?_⟩
  rw [hpc, BitVec.toNat_add_of_lt (Nat.succ_lt_succ hlt)]
  rfl

/-- Settles O16: `halt` changes the run state only, and in HALTED there is no step. -/
theorem haltStopsTheEngine : Obligations.HaltStopsTheEngine := by
  unfold Obligations.HaltStopsTheEngine
  refine ⟨rfl, if_pos rfl, fun lines => assembleTokens_of_lookup (form := .noOperand .halt) lines [] rfl, fun s => ?_⟩
  refine ⟨_, rfl, rfl, pc_withRun s .halted, rfl, rfl, fun _ => rfl, rfl, rfl, fun u hu => ?_⟩
  exact RunState.noConfusion (run_of_step_eq_next hu)

/-- Settles O19: each conditional jump under its own condition, which is a flag or its negation. -/
theorem takenJumpSetsPc : Obligations.TakenJumpSetsPc := by
  unfold Obligations.TakenJumpSetsPc
  intro rt s
  exact ⟨takeJump_pc rt s,
    jumpIf_pc_of_holds .carry rt, fun h => jumpIf_pc_of_holds .noCarry rt (congrArg Bool.not h),
    jumpIf_pc_of_holds .zero rt, fun h => jumpIf_pc_of_holds .notZero rt (congrArg Bool.not h),
    jumpIf_pc_of_holds .sign rt, fun h => jumpIf_pc_of_holds .notSign rt (congrArg Bool.not h),
    jumpIf_pc_of_holds .overflow rt, fun h => jumpIf_pc_of_holds .noOverflow rt (congrArg Bool.not h)⟩

end Sys2Proof.Machine
end

section
/-! `ld` and `st` (42_load_store.md): which operand is the address, and what they leave unchanged. -/

namespace Sys2Proof.Machine

/-! ### Register operands as a program writes them (30_encoding.md R124) -/

/-- A text in parentheses ends in no comma, and loses the one pair around it. -/
theorem stripParens_stripComma_parenthesised (t : Text) : stripParens (stripComma (parenthesised t)) = t := by
  have hcomma : stripComma (parenthesised t) = parenthesised t := by simp [stripComma, parenthesised]
  rw [hcomma]
  simp [stripParens, parenthesised]

/-- The name of a register has no comma and no parentheses to remove. -/
theorem stripParens_stripComma_regName : ∀ r : Reg, stripParens (stripComma (regName r)) = regName r := by decide

theorem parseDigits_regDigits : ∀ r : Reg, parseDigits 10 (regDigits r) = some r.val := by decide

theorem registerOperand_regName (r : Reg) : registerOperand (regName r) = .ok r :=
  registerOperand_of_number r.isLt (by
    rw [stripParens_stripComma_regName]
    exact parseDigits_regDigits r)

theorem registerOperand_parenthesised_regName (r : Reg) : registerOperand (parenthesised (regName r)) = .ok r :=
  registerOperand_of_number r.isLt (by
    rw [stripParens_stripComma_parenthesised]
    exact parseDigits_regDigits r)

/-- The two registers of a line are the operands of its instruction, in the order of the text. -/
theorem assembleTokens_twoRegisters (lines : List Text) {m r q : Text} {mk : Reg → Reg → Instr} {r1 r2 : Reg}
    (hm : mnemonicTable.lookup m = some (.twoRegisters mk)) (hr : registerOperand r = .ok r1)
    (hq : registerOperand q = .ok r2) : assembleTokens lines [m, r, q] = .ok (mk r1 r2) := by
  rw [assembleTokens_of_lookup lines [r, q] hm]
  simp only [assembleOperands, hr, hq]

/-! ### Load and store (R180, R183) -/

/-- `st` changes the memory by one word write, at its first register's value, and advances the pc. -/
theorem exec_st (ra rv : Reg) (s : State) :
    exec (.st ra rv) s = .next ({ s with mem := memWrite s.mem (s.reg ra) (s.reg rv) } : State).advancePc := rfl

/-- `ld` writes the word at its second register's value as its result. -/
theorem exec_ld_spec (rd ra : Reg) (s : State) :
    ∃ t, exec (.ld rd ra) s = .next t ∧ WritesResult rd (memRead s.mem (s.reg ra)) s.flags s t :=
  writeResult_spec rd (memRead s.mem (s.reg ra)) s

/-- A store, word by word and register by register. -/
theorem exec_st_words {s : State} (ra rv : Reg) (h : memWf s.mem = true) :
    ∃ t, exec (.st ra rv) s = .next t ∧ memRead t.mem (s.reg ra) = s.reg rv ∧
      (∀ a, a ≠ s.reg ra → memRead t.mem a = memRead s.mem a) ∧ ∀ r, r ≠ pcReg → t.reg r = s.reg r := by
  refine ⟨_, exec_st ra rv s, ?_, fun a ha => ?_, fun r hr => reg_advancePc_of_ne _ r hr⟩
  · rw [advancePc_mem]
    exact memRead_memWrite_same (s.reg ra) (s.reg rv) h
  · rw [advancePc_mem]
    exact memRead_memWrite_of_ne s.mem (s.reg rv) ha

/-- Settles O25: the line assembles to `st` with the plain register first, and `st` stores at its first register. -/
theorem stParenthesesMarkTheValue : Obligations.StParenthesesMarkTheValue := by
  unfold Obligations.StParenthesesMarkTheValue
  intro ra rv lines s h
  obtain ⟨t, ht, hstored, hothers, -⟩ := exec_st_words ra rv h
  have hline : assembleTokens lines ["st".toList, regName ra, parenthesised (regName rv)] = .ok (.st ra rv) :=
    assembleTokens_twoRegisters lines rfl (registerOperand_regName ra) (registerOperand_parenthesised_regName rv)
  exact ⟨_, t, hline, ht, hstored, hothers⟩

/-- Settles O26: the address is a register's value as it stands, and only a destination or the pc changes. -/
theorem effectiveAddressIsWholeRegister : Obligations.EffectiveAddressIsWholeRegister := by
  unfold Obligations.EffectiveAddressIsWholeRegister
  refine ⟨fun rd ra s hd => ?_, fun ra rv s h => ?_⟩
  · obtain ⟨t, ht, hw⟩ := exec_ld_spec rd ra s
    exact ⟨t, ht, hw.result hd, hw.others ra⟩
  · obtain ⟨t, ht, hstored, hothers, hregs⟩ := exec_st_words ra rv h
    exact ⟨t, ht, hstored, hothers, hregs ra⟩

end Sys2Proof.Machine
end

section
/-! The conditional jumps (43_jumps.md R192 to R200): the word, the flag-select code in it, and where the pc goes. -/

namespace Sys2Proof

/-- Bits 6..4 of a word of format JC are its flag-select code (30_encoding.md R96). -/
theorem field_formatJC_code (cc : FlagCond) (rt : Reg) : field (formatJC cc rt) 4 3 = cc.code := by
  apply BitVec.eq_of_toNat_eq
  rw [field_toNat, formatJC_toNat]
  have hrt := rt.isLt
  have hcc := cc.code.isLt
  omega

namespace Machine

/-- Settles O28: `jpz` is format JC with the condition `Z = 1`; where it falls through, it advances the pc as any other
instruction that does not jump. -/
theorem jpzJumpsIffZero : Obligations.JpzJumpsIffZero := by
  unfold Obligations.JpzJumpsIffZero
  intro rt s
  refine ⟨formatJC_toNat .zero rt, field_formatJC_code .zero rt, jumpIf_pc_of_holds .zero rt, fun hz hlt => ?_⟩
  have no_jump : jumpTaken (.jpz rt) s = false := hz
  exact pcAdvancesByOne (.jpz rt) s nofun no_jump nofun hlt

end Machine
end Sys2Proof
end

section
/-! The ALU operations and the flags (44_alu.md R221, R231): an operation answers a next state, and its class fixes the
flags there. -/

namespace Sys2Proof.Machine

section
variable {i : Instr} {d : Reg}

/-- An instruction with a destination register has no way to fault or to be refused. -/
theorem exec_eq_next_of_destination (hd : destination i = some d) (s : State) : ∃ t, exec i s = .next t := by
  obtain ⟨v, f, e⟩ := exec_eq_writeResultFlags_of_destination hd s
  obtain ⟨t, ht, -⟩ := writeResultFlags_spec d v f s
  exact ⟨t, e.trans ht⟩

theorem exec_next_flags_eq_of_destination (hd : destination i = some d) (hi : writesFlags i = false) (s : State) :
    ∃ t, exec i s = .next t ∧ t.flags = s.flags := by
  obtain ⟨t, ht⟩ := exec_eq_next_of_destination hd s
  exact ⟨t, ht, exec_keeps_flags hi ht⟩

end

/-- Settles O34: `add` has a destination, and it is one of the six flag writers, which all clear the carry. -/
theorem addClearsCarry : Obligations.AddClearsCarry := by
  unfold Obligations.AddClearsCarry
  intro d r s
  obtain ⟨t, ht⟩ := exec_eq_next_of_destination (i := .add d r) rfl s
  exact ⟨t, ht, exec_clears_carry rfl ht⟩

/-- Settles O37: each shift has a destination, and none is one of the six flag writers. -/
theorem shiftsKeepFlags : Obligations.ShiftsKeepFlags := by
  unfold Obligations.ShiftsKeepFlags
  intro d r s
  exact ⟨exec_next_flags_eq_of_destination (i := .shl d r) rfl rfl s,
    exec_next_flags_eq_of_destination (i := .shr d r) rfl rfl s,
    exec_next_flags_eq_of_destination (i := .ashr d r) rfl rfl s⟩

end Sys2Proof.Machine
end

section
/-! The codec's round trips (30_encoding.md section 3): each format gives its fields back, and a word is made of the
fields its format reads. The opcode map and the unassigned words follow from them. -/

namespace Sys2Proof

/-! ### The fields of an encoded word -/

section
variable (tag imm8 : BitVec 8) (cc : FlagCond) (r1 r2 rt : Reg)

theorem field_formatI_tag : field (formatI imm8 rt) 12 4 = 0b0001#4 := by
  apply BitVec.eq_of_toNat_eq
  rw [field_toNat, formatI_toNat]
  have := rt.isLt
  have := imm8.isLt
  simp
  omega

theorem field_formatI_imm : field (formatI imm8 rt) 4 8 = imm8 := by
  apply BitVec.eq_of_toNat_eq
  rw [field_toNat, formatI_toNat]
  have := rt.isLt
  have := imm8.isLt
  omega

theorem regField_formatI : regField (formatI imm8 rt) 0 = rt := by
  apply Fin.ext
  rw [regField_val, formatI_toNat]
  have := rt.isLt
  omega

theorem field_formatRR_tag : field (formatRR tag r1 r2) 8 8 = tag := by
  apply BitVec.eq_of_toNat_eq
  rw [field_toNat, formatRR_toNat]
  have := r1.isLt
  have := r2.isLt
  have := tag.isLt
  omega

theorem regField_formatRR_first : regField (formatRR tag r1 r2) 4 = r1 := by
  apply Fin.ext
  rw [regField_val, formatRR_toNat]
  have := r1.isLt
  have := r2.isLt
  omega

theorem regField_formatRR_second : regField (formatRR tag r1 r2) 0 = r2 := by
  apply Fin.ext
  rw [regField_val, formatRR_toNat]
  have := r2.isLt
  omega

theorem regField_formatJ : regField (formatJ rt) 0 = rt := by
  apply Fin.ext
  rw [regField_val, formatJ_toNat]
  have := rt.isLt
  omega

theorem regField_formatJC : regField (formatJC cc rt) 0 = rt := by
  apply Fin.ext
  rw [regField_val, formatJC_toNat]
  have := rt.isLt
  omega

end

/-! ### The decoder's tests as ranges of the word's number -/

/-- A field holds a given number exactly where the word's quotient and remainder do. -/
theorem field_eq_ofNat_iff (w : Word) (lo len n : Nat) :
    field w lo len = BitVec.ofNat len n ↔ w.toNat / 2 ^ lo % 2 ^ len = n % 2 ^ len := by
  rw [← BitVec.toNat_inj, field_toNat, BitVec.toNat_ofNat]

theorem word_eq_zero_iff (w : Word) : w = 0x0000#16 ↔ w.toNat = 0 := by
  rw [← BitVec.toNat_inj]
  rfl

section
variable {w : Word}

theorem decode_of_tagRR (h : w.toNat / 4096 ∈ [4, 8, 10]) :
    decode w =
      if field w 8 8 = 0x80#8 then .ok (.ld (regField w 4) (regField w 0))
      else if field w 8 8 = 0xA0#8 then .ok (.st (regField w 4) (regField w 0))
      else aluOf (field w 8 8) (regField w 4) (regField w 0) := by
  have hw : w.toNat / 4096 = 4 ∨ w.toNat / 4096 = 8 ∨ w.toNat / 4096 = 10 := by simpa using h
  have no_halt : w ≠ 0x0000#16 := by rw [Ne, word_eq_zero_iff]; omega
  have no_li : field w 12 4 ≠ 0b0001#4 := by rw [Ne, field_eq_ofNat_iff]; omega
  have no_jp : field w 4 12 ≠ 0xC00#12 := by rw [Ne, field_eq_ofNat_iff]; omega
  have no_condJump : field w 7 9 ≠ 0b111100000#9 := by rw [Ne, field_eq_ofNat_iff]; omega
  rw [decode, if_neg no_halt, if_neg no_li, if_neg no_jp, if_neg no_condJump]

theorem decode_of_tagJ (h : w.toNat / 16 = 0xC00) : decode w = .ok (.jp (regField w 0)) := by
  have no_halt : w ≠ 0x0000#16 := by rw [Ne, word_eq_zero_iff]; omega
  have no_li : field w 12 4 ≠ 0b0001#4 := by rw [Ne, field_eq_ofNat_iff]; omega
  have no_ld : field w 8 8 ≠ 0x80#8 := by rw [Ne, field_eq_ofNat_iff]; omega
  have no_st : field w 8 8 ≠ 0xA0#8 := by rw [Ne, field_eq_ofNat_iff]; omega
  have is_jp : field w 4 12 = 0xC00#12 := by rw [field_eq_ofNat_iff]; omega
  rw [decode, if_neg no_halt, if_neg no_li, if_neg no_ld, if_neg no_st, if_pos is_jp]

theorem decode_of_tagJC (h : w.toNat / 128 = 0x1E0) :
    decode w = .ok (condJumpOf (field w 4 3) (regField w 0)) := by
  have no_halt : w ≠ 0x0000#16 := by rw [Ne, word_eq_zero_iff]; omega
  have no_li : field w 12 4 ≠ 0b0001#4 := by rw [Ne, field_eq_ofNat_iff]; omega
  have no_ld : field w 8 8 ≠ 0x80#8 := by rw [Ne, field_eq_ofNat_iff]; omega
  have no_st : field w 8 8 ≠ 0xA0#8 := by rw [Ne, field_eq_ofNat_iff]; omega
  have no_jp : field w 4 12 ≠ 0xC00#12 := by rw [Ne, field_eq_ofNat_iff]; omega
  have is_condJump : field w 7 9 = 0b111100000#9 := by rw [field_eq_ofNat_iff]; omega
  rw [decode, if_neg no_halt, if_neg no_li, if_neg no_ld, if_neg no_st, if_neg no_jp, if_pos is_condJump]

end

/-! ### Decoding each format -/

theorem decode_formatI (imm8 : BitVec 8) (rd : Reg) : decode (formatI imm8 rd) = .ok (.li rd imm8) := by
  rw [decode_of_tagI (field_formatI_tag imm8 rd), field_formatI_imm, regField_formatI]

theorem decode_formatRR {tag : BitVec 8} (r1 r2 : Reg) (h : tag.toNat / 16 ∈ [4, 8, 10]) :
    decode (formatRR tag r1 r2) =
      if tag = 0x80#8 then .ok (.ld r1 r2) else if tag = 0xA0#8 then .ok (.st r1 r2) else aluOf tag r1 r2 := by
  have top : (formatRR tag r1 r2).toNat / 4096 = tag.toNat / 16 := by
    rw [formatRR_toNat]
    have := r1.isLt
    have := r2.isLt
    omega
  rw [decode_of_tagRR (top ▸ h), field_formatRR_tag, regField_formatRR_first, regField_formatRR_second]

theorem decode_formatJ (rt : Reg) : decode (formatJ rt) = .ok (.jp rt) := by
  rw [decode_of_tagJ (by rw [formatJ_toNat]; have := rt.isLt; omega), regField_formatJ]

theorem decode_formatJC (cc : FlagCond) (rt : Reg) : decode (formatJC cc rt) = .ok (condJumpOf cc.code rt) := by
  have tag : (formatJC cc rt).toNat / 128 = 0x1E0 := by
    rw [formatJC_toNat]
    have := rt.isLt
    have := cc.code.isLt
    omega
  rw [decode_of_tagJC tag, field_formatJC_code, regField_formatJC]

/-- Settles O3: one format per group of instructions; the tag or the flag-select code selects within the group. -/
theorem decodeOfEncode : Obligations.DecodeOfEncode := by
  unfold Obligations.DecodeOfEncode
  intro i
  cases i with
  | halt => exact if_pos rfl
  | li rd imm8 => exact decode_formatI imm8 rd
  | jp rt => exact decode_formatJ rt
  | jpc rt | jpnc rt | jpz rt | jpnz rt | jps rt | jpns rt | jpo rt | jpno rt => exact decode_formatJC _ rt
  | ld a b | st a b | nop a b | or a b | and a b | xor a b | add a b | sub a b | shl a b | shr a b | ashr a b
  | not a b | neg a b => exact decode_formatRR a b (by decide)

/-! ### A word is the format of its own fields -/

section
variable {w : Word}

theorem formatI_fields (h : field w 12 4 = 0b0001#4) : formatI (field w 4 8) (regField w 0) = w := by
  rw [field_eq_ofNat_iff] at h
  apply BitVec.eq_of_toNat_eq
  rw [formatI_toNat, field_toNat, regField_val]
  have := w.isLt
  omega

theorem formatRR_fields {tag : BitVec 8} (h : field w 8 8 = tag) : formatRR tag (regField w 4) (regField w 0) = w := by
  subst h
  apply BitVec.eq_of_toNat_eq
  rw [formatRR_toNat, field_toNat, regField_val, regField_val]
  have := w.isLt
  omega

theorem formatJ_fields (h : field w 4 12 = 0xC00#12) : formatJ (regField w 0) = w := by
  rw [field_eq_ofNat_iff] at h
  apply BitVec.eq_of_toNat_eq
  rw [formatJ_toNat, regField_val]
  have := w.isLt
  omega

theorem formatJC_fields {cc : FlagCond} (h : field w 7 9 = 0b111100000#9) (hc : field w 4 3 = cc.code) :
    formatJC cc (regField w 0) = w := by
  rw [field_eq_ofNat_iff] at h
  apply BitVec.eq_of_toNat_eq
  rw [formatJC_toNat, ← hc, field_toNat, regField_val]
  have := w.isLt
  omega

end

/-- The conditional jump of a condition's code is encoded in format JC with that condition. -/
theorem encode_condJumpOf_code (cc : FlagCond) (rt : Reg) : encode (condJumpOf cc.code rt) = formatJC cc rt := by
  cases cc <;> rfl

/-- Settles O4: the test a word meets fixes its tag, and the rest of the word are the operand fields. -/
theorem encodeOfDecode : Obligations.EncodeOfDecode := by
  unfold Obligations.EncodeOfDecode
  intro w i h
  obtain ⟨rfl, rfl⟩ | ⟨ht, rfl⟩ | ⟨ht, rfl⟩ | ⟨ht, rfl⟩ | ⟨ht, rfl⟩ | ⟨ht, rfl⟩ | ha := decode_eq_ok h
  · rfl
  · exact formatI_fields ht
  · exact formatRR_fields ht
  · exact formatRR_fields ht
  · exact formatJ_fields ht
  · obtain ⟨cc, hcc⟩ := FlagCond.exists_code_eq (field w 4 3)
    rw [hcc, encode_condJumpOf_code, formatJC_fields ht hcc]
  · obtain ⟨p, hp, ht, rfl⟩ := aluOf_eq_ok ha
    fin_cases hp <;> exact formatRR_fields ht

/-! ### The words that are no instruction (R107, R108) -/

theorem aluOf_eq_error_iff (tag : BitVec 8) (dst src : Reg) :
    aluOf tag dst src = .error .unassigned ↔ tag.toNat < 0x40 ∨ 0x4A < tag.toNat := by
  constructor
  · intro h
    by_contra hr
    have hmem : tag.toNat ∈ [0x40, 0x41, 0x42, 0x43, 0x44, 0x45, 0x46, 0x47, 0x48, 0x49, 0x4A] := by
      simp only [List.mem_cons, List.not_mem_nil]
      omega
    obtain ⟨t, ht⟩ : ∃ t, t = tag.toNat := ⟨_, rfl⟩
    rw [← ht] at hmem
    obtain rfl : tag = BitVec.ofNat 8 t := by rw [ht, BitVec.ofNat_toNat, BitVec.setWidth_eq]
    clear ht hr
    fin_cases hmem <;> cases h
  · intro h
    cases ha : aluOf tag dst src with
    | error e => rfl
    | ok i =>
      obtain ⟨p, hp, ht, -⟩ := aluOf_eq_ok ha
      subst ht
      fin_cases hp <;> simp at h

/-- A word is unassigned exactly where it fails the test of every format but RR and has no ALU operation's tag. -/
theorem decode_eq_error_iff (w : Word) :
    decode w = .error .unassigned ↔
      w ≠ 0x0000#16 ∧ field w 12 4 ≠ 0b0001#4 ∧ field w 8 8 ≠ 0x80#8 ∧ field w 8 8 ≠ 0xA0#8 ∧
      field w 4 12 ≠ 0xC00#12 ∧ field w 7 9 ≠ 0b111100000#9 ∧
      aluOf (field w 8 8) (regField w 4) (regField w 0) = .error .unassigned := by
  unfold decode
  repeat' split
  all_goals simp_all

/-- Settles O5: each failed test is a bound on the word's number. -/
theorem unassignedWordsAreTheListedRanges : Obligations.UnassignedWordsAreTheListedRanges := by
  unfold Obligations.UnassignedWordsAreTheListedRanges
  intro w
  rw [decode_eq_error_iff, aluOf_eq_error_iff]
  simp only [Ne, word_eq_zero_iff, field_eq_ofNat_iff, field_toNat]
  have := w.isLt
  omega

/-- Settles O1: seven of the words are encodings written out, the eighth lies in a listed range. -/
theorem writtenOutWordsDecode : Obligations.WrittenOutWordsDecode := by
  unfold Obligations.WrittenOutWordsDecode
  exact ⟨decodeOfEncode .halt, decodeOfEncode (.li 1 5), decodeOfEncode (.ld 1 2), decodeOfEncode (.st 1 2),
    decodeOfEncode (.jp 3), decodeOfEncode (.jpz 3), decodeOfEncode (.add 1 2),
    (unassignedWordsAreTheListedRanges _).mpr (by decide)⟩

/-! ### The opcode map (R102) -/

/-- The row of an instruction does not depend on its operands, and stands in the map. -/
theorem row_mem_opcodeMap (i : Instr) : i.row ∈ opcodeMap := by
  cases i <;> simp [opcodeMap, oneOfEach, Instr.row]

theorem row_spells_encode (i : Instr) : i.row.spells (encode i) = true := by
  cases i with
  | halt => exact Laws.EncodeMatchesRow.halt
  | li rd imm8 => exact Laws.EncodeMatchesRow.li rd imm8
  | jp rt => exact Laws.EncodeMatchesRow.jp rt
  | jpc rt | jpnc rt | jpz rt | jpnz rt | jps rt | jpns rt | jpo rt | jpno rt =>
    exact Laws.EncodeMatchesRow.of_formatJC _ _ rt rfl rfl
  | ld a b | st a b | nop a b | or a b | and a b | xor a b | add a b | sub a b | shl a b | shr a b | ashr a b
  | not a b | neg a b => exact Laws.EncodeMatchesRow.of_formatRR _ _ a b rfl rfl

section
variable {r : OpcodeRow} {w : Word}

/-- A word under the mask 0xFF00 is format RR with the row's tag. -/
theorem formatRR_of_spells (tag : BitVec 8) (hm : r.mask = 0xFF00#16) (hp : r.pattern.toNat = tag.toNat * 256)
    (h : r.spells w = true) : formatRR tag (regField w 4) (regField w 0) = w := by
  rw [spells_iff r w 8 hm, hp] at h
  apply formatRR_fields
  apply BitVec.eq_of_toNat_eq
  rw [field_toNat]
  have := w.isLt
  omega

/-- A word under the mask 0xFFF0 and 0xF000 is format JC with the row's condition. -/
theorem formatJC_of_spells (cc : FlagCond) (hm : r.mask = 0xFFF0#16)
    (hp : r.pattern.toNat = 61440 + cc.code.toNat * 16) (h : r.spells w = true) : formatJC cc (regField w 0) = w := by
  rw [spells_iff r w 4 hm, hp] at h
  have hcc := cc.code.isLt
  apply formatJC_fields
  · rw [field_eq_ofNat_iff]
    omega
  · apply BitVec.eq_of_toNat_eq
    rw [field_toNat]
    omega

/-- A word that a row of the map spells is the encoding of an instruction of that row. -/
theorem exists_encode_of_spells (hr : r ∈ opcodeMap) (h : r.spells w = true) : ∃ i, i.row = r ∧ encode i = w := by
  obtain ⟨j, -, rfl⟩ := List.mem_map.mp hr
  cases j with
  | halt =>
    refine ⟨.halt, rfl, ?_⟩
    rw [spells_iff _ w 0 rfl] at h
    exact ((word_eq_zero_iff w).mpr (by simpa [Instr.row] using h)).symm
  | li rd imm8 =>
    refine ⟨.li (regField w 0) (field w 4 8), rfl, formatI_fields ?_⟩
    rw [spells_iff _ w 12 rfl] at h
    simp only [Instr.row, BitVec.toNat_ofNat] at h
    rw [field_eq_ofNat_iff]
    omega
  | jp rt =>
    refine ⟨.jp (regField w 0), rfl, formatJ_fields ?_⟩
    rw [spells_iff _ w 4 rfl] at h
    simp only [Instr.row, BitVec.toNat_ofNat] at h
    rw [field_eq_ofNat_iff]
    omega
  | jpc => exact ⟨.jpc (regField w 0), rfl, formatJC_of_spells .carry rfl rfl h⟩
  | jpnc => exact ⟨.jpnc (regField w 0), rfl, formatJC_of_spells .noCarry rfl rfl h⟩
  | jpz => exact ⟨.jpz (regField w 0), rfl, formatJC_of_spells .zero rfl rfl h⟩
  | jpnz => exact ⟨.jpnz (regField w 0), rfl, formatJC_of_spells .notZero rfl rfl h⟩
  | jps => exact ⟨.jps (regField w 0), rfl, formatJC_of_spells .sign rfl rfl h⟩
  | jpns => exact ⟨.jpns (regField w 0), rfl, formatJC_of_spells .notSign rfl rfl h⟩
  | jpo => exact ⟨.jpo (regField w 0), rfl, formatJC_of_spells .overflow rfl rfl h⟩
  | jpno => exact ⟨.jpno (regField w 0), rfl, formatJC_of_spells .noOverflow rfl rfl h⟩
  | ld => exact ⟨.ld (regField w 4) (regField w 0), rfl, formatRR_of_spells 0x80#8 rfl rfl h⟩
  | st => exact ⟨.st (regField w 4) (regField w 0), rfl, formatRR_of_spells 0xA0#8 rfl rfl h⟩
  | nop => exact ⟨.nop (regField w 4) (regField w 0), rfl, formatRR_of_spells 0x40#8 rfl rfl h⟩
  | or => exact ⟨.or (regField w 4) (regField w 0), rfl, formatRR_of_spells 0x41#8 rfl rfl h⟩
  | and => exact ⟨.and (regField w 4) (regField w 0), rfl, formatRR_of_spells 0x42#8 rfl rfl h⟩
  | xor => exact ⟨.xor (regField w 4) (regField w 0), rfl, formatRR_of_spells 0x43#8 rfl rfl h⟩
  | add => exact ⟨.add (regField w 4) (regField w 0), rfl, formatRR_of_spells 0x44#8 rfl rfl h⟩
  | sub => exact ⟨.sub (regField w 4) (regField w 0), rfl, formatRR_of_spells 0x45#8 rfl rfl h⟩
  | shl => exact ⟨.shl (regField w 4) (regField w 0), rfl, formatRR_of_spells 0x46#8 rfl rfl h⟩
  | shr => exact ⟨.shr (regField w 4) (regField w 0), rfl, formatRR_of_spells 0x47#8 rfl rfl h⟩
  | ashr => exact ⟨.ashr (regField w 4) (regField w 0), rfl, formatRR_of_spells 0x48#8 rfl rfl h⟩
  | not => exact ⟨.not (regField w 4) (regField w 0), rfl, formatRR_of_spells 0x49#8 rfl rfl h⟩
  | neg => exact ⟨.neg (regField w 4) (regField w 0), rfl, formatRR_of_spells 0x4A#8 rfl rfl h⟩

/-- A row spells only words that decode to an instruction of the row. -/
theorem decode_of_spells (hr : r ∈ opcodeMap) (h : r.spells w = true) : ∃ i, i.row = r ∧ decode w = .ok i := by
  obtain ⟨i, hi, rfl⟩ := exists_encode_of_spells hr h
  exact ⟨i, hi, decodeOfEncode i⟩

end

/-- Settles O6: a word decodes to at most one instruction, so its row is the only one that can spell the word. -/
theorem opcodeMapAgreesWithDecoder : Obligations.OpcodeMapAgreesWithDecoder := by
  unfold Obligations.OpcodeMapAgreesWithDecoder
  refine ⟨fun w r q hr hq hrw hqw => ?_, fun w i hi => ⟨row_mem_opcodeMap i, ?_⟩, fun w hw r hr => ?_⟩
  · obtain ⟨i, rfl, hi⟩ := decode_of_spells hr hrw
    obtain ⟨j, rfl, hj⟩ := decode_of_spells hq hqw
    cases hi.symm.trans hj
    rfl
  · rw [← encodeOfDecode w i hi]
    exact row_spells_encode i
  · rw [Bool.eq_false_iff]
    intro hrw
    obtain ⟨i, -, hi⟩ := decode_of_spells hr hrw
    cases hi.symm.trans hw

/-! ### The encoder as arithmetic (R104) -/

/-- Joining two fields is shifting the first above the second. -/
theorem shiftLeft_or_toNat {x y : Word} {k : Nat} (hx : x.toNat * 2 ^ k < 65536) (hy : y.toNat < 2 ^ k) :
    (x <<< k ||| y).toNat = x.toNat * 2 ^ k + y.toNat := by
  rw [BitVec.toNat_or, BitVec.toNat_shiftLeft, Nat.shiftLeft_eq, Nat.mod_eq_of_lt hx, ← Nat.shiftLeft_eq,
    Nat.shiftLeft_add_eq_or_of_lt hy]

theorem ofNat_reg_toNat (r : Reg) : (BitVec.ofNat 16 r.val).toNat = r.val := by
  have := r.isLt
  rw [BitVec.toNat_ofNat, Nat.mod_eq_of_lt (by omega)]

/-- The three fields of formats I, RR and JC, joined by shifts and ORs. -/
theorem or_fields_toNat {x y z : Word} {k : Nat} (hk : k ≤ 16) (hx : x.toNat * 2 ^ k < 65536)
    (hy : y.toNat * 16 + 16 ≤ 2 ^ k) (hz : z.toNat < 16) :
    (x <<< k ||| y <<< 4 ||| z).toNat = x.toNat * 2 ^ k + y.toNat * 16 + z.toNat := by
  have : 2 ^ k ≤ 2 ^ 16 := Nat.pow_le_pow_right (by decide) hk
  have low : (y <<< 4 ||| z).toNat = y.toNat * 16 + z.toNat := shiftLeft_or_toNat (by omega) hz
  rw [BitVec.or_assoc, shiftLeft_or_toNat hx (by omega), low, Nat.add_assoc]

theorem formatRR_eq_or (tag : BitVec 8) (r1 r2 : Reg) :
    formatRR tag r1 r2 = (tag.setWidth 16 <<< 8) ||| (BitVec.ofNat 16 r1.val <<< 4) ||| BitVec.ofNat 16 r2.val := by
  have h1 := ofNat_reg_toNat r1
  have h2 := ofNat_reg_toNat r2
  have htag : (tag.setWidth 16).toNat = tag.toNat := BitVec.toNat_setWidth_of_le (by decide)
  have := r1.isLt
  have := r2.isLt
  have := tag.isLt
  apply BitVec.eq_of_toNat_eq
  rw [formatRR_toNat, or_fields_toNat (by decide) (by omega) (by omega) (by omega), htag, h1, h2]
  rfl

theorem formatI_eq_or (imm8 : BitVec 8) (rd : Reg) :
    formatI imm8 rd = 0x1000#16 ||| (imm8.setWidth 16 <<< 4) ||| BitVec.ofNat 16 rd.val := by
  have h := ofNat_reg_toNat rd
  have himm : (imm8.setWidth 16).toNat = imm8.toNat := BitVec.toNat_setWidth_of_le (by decide)
  have := rd.isLt
  have := imm8.isLt
  apply BitVec.eq_of_toNat_eq
  rw [formatI_toNat, show 0x1000#16 = 1#16 <<< 12 from rfl,
    or_fields_toNat (by decide) (by decide) (by omega) (by omega), himm, h]
  rfl

theorem formatJ_eq_or (rt : Reg) : formatJ rt = 0xC000#16 ||| BitVec.ofNat 16 rt.val := by
  have h := ofNat_reg_toNat rt
  have := rt.isLt
  apply BitVec.eq_of_toNat_eq
  rw [formatJ_toNat, show 0xC000#16 = 0xC00#16 <<< 4 from rfl, shiftLeft_or_toNat (by decide) (by omega), h]
  rfl

theorem formatJC_eq_or (cc : FlagCond) (rt : Reg) :
    formatJC cc rt = 0xF000#16 ||| (cc.code.setWidth 16 <<< 4) ||| BitVec.ofNat 16 rt.val := by
  have h := ofNat_reg_toNat rt
  have hcode : (cc.code.setWidth 16).toNat = cc.code.toNat := BitVec.toNat_setWidth_of_le (by decide)
  have := rt.isLt
  have := cc.code.isLt
  apply BitVec.eq_of_toNat_eq
  rw [formatJC_toNat, show 0xF000#16 = 0x1E0#16 <<< 7 from rfl,
    or_fields_toNat (by decide) (by decide) (by omega) (by omega), hcode, h]
  rfl

/-- Settles O7: each instruction is its format, and each format is the OR of its shifted fields. -/
theorem encoderIsShiftsAndOrs : Obligations.EncoderIsShiftsAndOrs := by
  unfold Obligations.EncoderIsShiftsAndOrs
  intro a b imm8
  refine ⟨rfl, formatI_eq_or imm8 a, formatRR_eq_or 0x80#8 a b, formatRR_eq_or 0xA0#8 a b, formatJ_eq_or a, ?_⟩
  refine ⟨formatJC_eq_or .carry a, formatJC_eq_or .noCarry a, formatJC_eq_or .zero a, formatJC_eq_or .notZero a,
    formatJC_eq_or .sign a, formatJC_eq_or .notSign a, formatJC_eq_or .overflow a, formatJC_eq_or .noOverflow a, ?_⟩
  exact ⟨formatRR_eq_or 0x40#8 a b, formatRR_eq_or 0x41#8 a b, formatRR_eq_or 0x42#8 a b, formatRR_eq_or 0x43#8 a b,
    formatRR_eq_or 0x44#8 a b, formatRR_eq_or 0x45#8 a b, formatRR_eq_or 0x46#8 a b, formatRR_eq_or 0x47#8 a b,
    formatRR_eq_or 0x48#8 a b, formatRR_eq_or 0x49#8 a b, formatRR_eq_or 0x4A#8 a b⟩

/-! ### The flag-select code (R100) -/

/-- Settles O8: for each condition the code's three bits are written out. -/
theorem flagSelectCodeStructure : Obligations.FlagSelectCodeStructure := by
  unfold Obligations.FlagSelectCodeStructure
  intro cc f
  cases cc <;> simp [FlagCond.code, Machine.condHolds]

end Sys2Proof
end

section
/-! What each instruction leaves (41_halt_li.md, 42_load_store.md, 44_alu.md): the words and flags the operations compute,
in the spec's terms, and each instruction as one use of a shared operation's law. -/

namespace Sys2Proof.Machine

/-! ### Shifts (44_alu.md R225 to R229) -/

section
variable (a b : Word) (n : Nat)

theorem shlOnce_eq : shlOnce a = a <<< 1 := by
  apply BitVec.eq_of_getLsbD_eq
  intro i hi
  simp only [shlOnce, BitVec.getLsbD_append, BitVec.getLsbD_extractLsb', BitVec.getLsbD_shiftLeft]
  by_cases h : i = 0
  · simp [h]
  · simp [show ¬ i < 1 by omega, show i - 1 < 15 by omega, hi]

theorem shrOnce_eq : shrOnce a = a >>> 1 := by
  apply BitVec.eq_of_getLsbD_eq
  intro i hi
  simp only [shrOnce, BitVec.getLsbD_append, BitVec.getLsbD_extractLsb', BitVec.getLsbD_ushiftRight]
  by_cases h : i < 15
  · simp [h]
  · simp [show i = 15 by omega]

theorem ashrOnce_eq : ashrOnce a = a.sshiftRight 1 := by
  apply BitVec.eq_of_getLsbD_eq
  intro i hi
  simp only [ashrOnce, BitVec.getLsbD_append, BitVec.getLsbD_extractLsb', BitVec.getLsbD_sshiftRight]
  by_cases h : i < 15
  · simp [h, show 1 + i < 16 by omega, hi]
  · simp [show i = 15 by omega, BitVec.msb_eq_getLsbD_last]

theorem repeatTimes_shlOnce : repeatTimes n shlOnce a = a <<< n := by
  induction n generalizing a with
  | zero => exact (BitVec.shiftLeft_zero a).symm
  | succ n ih => rw [repeatTimes, ih, shlOnce_eq, ← BitVec.shiftLeft_add, Nat.add_comm]

theorem repeatTimes_shrOnce : repeatTimes n shrOnce a = a >>> n := by
  induction n generalizing a with
  | zero => exact (BitVec.ushiftRight_zero a).symm
  | succ n ih => rw [repeatTimes, ih, shrOnce_eq, ← BitVec.shiftRight_add, Nat.add_comm]

theorem repeatTimes_ashrOnce : repeatTimes n ashrOnce a = a.sshiftRight n := by
  induction n generalizing a with
  | zero => exact BitVec.sshiftRight_zero.symm
  | succ n ih => rw [repeatTimes, ih, ashrOnce_eq, ← BitVec.sshiftRight_add, Nat.add_comm]

/-- A shift right by the width or more leaves sixteen copies of the sign bit. -/
theorem sshiftRight_of_ge (h : 16 ≤ n) : a.sshiftRight n = if a.msb then 0xFFFF#16 else 0x0000#16 := by
  apply BitVec.eq_of_getLsbD_eq
  intro i hi
  rw [BitVec.getLsbD_sshiftRight, if_neg (by omega)]
  cases a.msb with
  | false => simp
  | true =>
    rw [if_pos rfl, show 0xFFFF#16 = BitVec.allOnes 16 from rfl, BitVec.getLsbD_allOnes]
    simp [hi]

theorem shlResult_eq : shlResult a b = a <<< b.toNat := by
  unfold shlResult shiftCount
  split
  next => rfl
  next h => exact (BitVec.shiftLeft_eq_zero (by omega)).symm

theorem shrResult_eq : shrResult a b = a >>> b.toNat := by
  unfold shrResult shiftCount
  split
  next => rfl
  next h => exact (BitVec.ushiftRight_eq_zero (by omega)).symm

theorem ashrResult_eq : ashrResult a b = a.sshiftRight b.toNat := by
  unfold ashrResult shiftCount
  split
  next => rfl
  next h => exact (sshiftRight_of_ge a b.toNat (by omega)).symm

end

/-- Settles O36: the shift as a signed number, and the sign bit as a bound on it. -/
theorem ashrIsFloorDivision : Obligations.AshrIsFloorDivision := by
  unfold Obligations.AshrIsFloorDivision
  intro a b
  rw [ashrResult_eq]
  refine ⟨fun _ => ?_, fun h => ?_⟩
  · calc a.sshiftRight b.toNat
      _ = BitVec.ofInt 16 (a.sshiftRight b.toNat).toInt := BitVec.ofInt_toInt.symm
      _ = BitVec.ofInt 16 (a.toInt / 2 ^ b.toNat) := by
        rw [BitVec.toInt_sshiftRight, Int.shiftRight_eq_div_pow, Int.natCast_pow, Nat.cast_ofNat]
  · rw [sshiftRight_of_ge a _ h, BitVec.msb_eq_toInt]
    simp

/-! ### Sums, differences and complements (44_alu.md R219 to R223, R232, R233) -/

section
variable (a b : Word)

/-- The signed sum passes the largest signed word exactly where two words without sign add up to one with a sign. -/
theorem signed_sum_gt_iff :
    a.toInt + b.toInt > 32767 ↔ a.msb = false ∧ b.msb = false ∧ (a + b).msb = true := by
  simp only [BitVec.msb_eq_decide, BitVec.toInt_eq_toNat_cond, BitVec.toNat_add, decide_eq_true_eq, decide_eq_false_iff_not]
  have := a.isLt
  have := b.isLt
  omega

theorem beq_zero_eq_decide : (a == 0#16) = decide (a.toNat = 0) := by
  rw [Bool.eq_iff_iff, beq_iff_eq, decide_eq_true_eq, ← BitVec.toNat_inj]
  rfl

theorem addOverflow_eq : addOverflow addVReading a b = (!a.msb && !b.msb && (a + b).msb) := by
  rw [Bool.eq_iff_iff]
  simpa [addOverflow, addVReading, and_assoc] using signed_sum_gt_iff a b

theorem addFlags_eq :
    addFlags a b = { c := false, z := decide ((a.toNat + b.toNat) % 65536 = 0), s := false,
                     v := !a.msb && !b.msb && (a + b).msb } := by
  rw [addFlags, addOverflow_eq, beq_zero_eq_decide, BitVec.toNat_add]

theorem sub_eq_ofInt : a - b = BitVec.ofInt 16 ((a.toNat : Int) - b.toNat) := by
  apply BitVec.eq_of_toNat_eq
  rw [BitVec.toNat_sub, BitVec.toNat_ofInt]
  have := a.isLt
  have := b.isLt
  omega

/-- A word with a sign is not 0, so the sign flag is bit 15 of the difference without the test for 0. -/
theorem subSign_eq : subSign subSReading a b = (a - b).getLsbD 15 := by
  rw [← BitVec.msb_eq_getLsbD_last (a - b)]
  simp only [subSign, subSReading]
  by_cases h : a - b = 0#16
  · simp [h]
  · simp [h]

theorem sub_beq_zero : (a - b == 0#16) = decide (a = b) := by
  rw [Bool.eq_iff_iff, beq_iff_eq, decide_eq_true_eq]
  exact sub_eq_zero

theorem subFlags_eq :
    subFlags a b = { c := false, z := decide (a = b), s := (a - b).getLsbD 15, v := false } := by
  rw [subFlags, subSign_eq, sub_beq_zero]

theorem logicFlags_eq :
    logicFlags a = { c := false, z := decide (a.toNat = 0), s := false, v := false } := by
  rw [logicFlags, beq_zero_eq_decide]

theorem logicFlags_xor :
    logicFlags (a ^^^ b) = { c := false, z := decide (a = b), s := false, v := false } := by
  have h : (a ^^^ b == 0#16) = decide (a = b) := by
    rw [Bool.eq_iff_iff, beq_iff_eq, decide_eq_true_eq]
    exact BitVec.xor_eq_zero_iff
  rw [logicFlags, h]

theorem not_eq_ofNat : ~~~b = BitVec.ofNat 16 (65535 - b.toNat) := by
  apply BitVec.eq_of_toNat_eq
  rw [BitVec.toNat_not, BitVec.toNat_ofNat]
  omega

theorem negResult_eq_ofNat : negResult b = BitVec.ofNat 16 (65536 - b.toNat) := by
  apply BitVec.eq_of_toNat_eq
  rw [negResult, ← BitVec.neg_eq_not_add, BitVec.toNat_neg, BitVec.toNat_ofNat]

end

theorem immediate_eq_append (imm8 : BitVec 8) : immediate imm8 = 0x00#8 ++ imm8 :=
  BitVec.setWidth_eq_append (by decide)

/-! ### The instructions with a result -/

/-- Settles O21: the zero extension is eight zero bits above the immediate. -/
theorem liLoadsImmediate : Obligations.LiLoadsImmediate := by
  unfold Obligations.LiLoadsImmediate
  intro rd imm8 s
  rw [← immediate_eq_append]
  exact writeResult_spec rd _ s

/-- Settles O23: `ld` writes a result. -/
theorem ldLoadsWord : Obligations.LdLoadsWord := exec_ld_spec

/-- Settles O30: `nop` writes its source as the result, with cleared flags. -/
theorem nopCopiesAndClearsFlags : Obligations.NopCopiesAndClearsFlags := by
  unfold Obligations.NopCopiesAndClearsFlags
  intro d r s
  exact writeResultFlags_spec d (s.reg r) clearedFlags s

/-- Settles O31: the three results differ in the operation only; for `xor` a zero result means equal operands. -/
theorem logicOperationsWriteResultAndZero : Obligations.LogicOperationsWriteResultAndZero := by
  unfold Obligations.LogicOperationsWriteResultAndZero
  intro d r s
  rw [← logicFlags_eq, ← logicFlags_eq, ← logicFlags_xor]
  exact ⟨writeResultFlags_spec d _ _ s, writeResultFlags_spec d _ _ s, writeResultFlags_spec d _ _ s⟩

/-- Settles O32: `add` in the spec's terms; its overflow flag is the signed bound, which is three sign bits. -/
theorem addWritesSumAndFlags : Obligations.AddWritesSumAndFlags := by
  unfold Obligations.AddWritesSumAndFlags
  intro d r s
  rw [← addFlags_eq, ← BitVec.add_def]
  exact ⟨writeResultFlags_spec d _ _ s, signed_sum_gt_iff _ _⟩

/-- Settles O33: `sub` in the spec's terms; its sign flag is bit 15. -/
theorem subWritesDifferenceAndFlags : Obligations.SubWritesDifferenceAndFlags := by
  unfold Obligations.SubWritesDifferenceAndFlags
  intro d r s
  rw [← subFlags_eq, ← sub_eq_ofInt]
  exact writeResultFlags_spec d _ _ s

/-- Settles O35: both the closed form and the repeated step are the shift by the whole count. -/
theorem shiftsEqualRepeatedSteps : Obligations.ShiftsEqualRepeatedSteps := by
  unfold Obligations.ShiftsEqualRepeatedSteps
  intro d r s
  rw [repeatTimes_shlOnce, repeatTimes_shrOnce, repeatTimes_ashrOnce, ← shlResult_eq, ← shrResult_eq, ← ashrResult_eq]
  exact ⟨writeResult_spec d _ s, writeResult_spec d _ s, writeResult_spec d _ s⟩

/-- Settles O38: both complements are subtractions from a constant. -/
theorem complementsWriteResultOnly : Obligations.ComplementsWriteResultOnly := by
  unfold Obligations.ComplementsWriteResultOnly
  intro d r s
  rw [← not_eq_ofNat, ← negResult_eq_ofNat]
  exact ⟨writeResult_spec d _ s, writeResult_spec d _ s⟩

/-! ### Store and jumps -/

/-- Settles O24: the store law of the memory, and the advance of the pc. -/
theorem stStoresWord : Obligations.StStoresWord := by
  unfold Obligations.StStoresWord
  intro ra rv s
  refine ⟨_, exec_st ra rv s, pc_advancePc _, fun r hr => reg_advancePc_of_ne _ r hr, rfl, rfl, rfl, rfl,
    fun k hh hl => ?_, fun h => ?_⟩
  · rw [advancePc_mem]
    exact readByte_memWrite_of_ne _ _ _ k hh hl
  · rw [advancePc_mem]
    exact memRead_memWrite_same _ _ h

/-- Settles O27: each conditional jump under its own condition, which is a flag or its negation. -/
theorem jumpsDoAsTheirFlagSays : Obligations.JumpsDoAsTheirFlagSays := by
  unfold Obligations.JumpsDoAsTheirFlagSays
  intro rt s
  exact ⟨takeJump_spec rt s, jumpIf_spec .carry rt s, jumpIf_spec .noCarry rt s, jumpIf_spec .zero rt s,
    jumpIf_spec .notZero rt s, jumpIf_spec .sign rt s, jumpIf_spec .notSign rt s, jumpIf_spec .overflow rt s,
    jumpIf_spec .noOverflow rt s⟩

theorem jumpIf_of_holds {cc : FlagCond} {s : State} (rt : Reg) (h : condHolds cc s.flags = true) :
    jumpIf cc rt s = takeJump rt s := if_pos h

theorem jumpIf_of_not_holds {cc : FlagCond} {s : State} (rt : Reg) (h : condHolds cc s.flags = false) :
    jumpIf cc rt s = .next s.advancePc := if_neg (Bool.eq_false_iff.mp h)

/-- Settles O29: the carry is clear along a run. -/
theorem carryJumpsAreSettled : Obligations.CarryJumpsAreSettled := by
  unfold Obligations.CarryJumpsAreSettled
  intro s₀ s rt h
  obtain ⟨-, -, carry_clear⟩ := carryIsNeverSet
  have hc : s.flags.c = false := carry_clear s₀ s h
  exact ⟨jumpIf_of_not_holds (cc := .carry) rt hc, jumpIf_of_holds (cc := .noCarry) rt (congrArg Bool.not hc)⟩

/-! ### Register 15 as an operand (10_state.md R36 to R38, 40_execution_cycle.md R156) -/

section
variable (d : Reg) (v : Word) (f : Flags) (s : State)

theorem writeResultFlags_leaves : ∃ t, writeResultFlags d v f s = .next t ∧ LeavesResult d v s t := by
  obtain ⟨t, ht, hw⟩ := writeResultFlags_spec d v f s
  exact ⟨t, ht, hw.toLeavesResult⟩

theorem writeResult_leaves : ∃ t, writeResult d v s = .next t ∧ LeavesResult d v s t :=
  writeResultFlags_leaves d v s.flags s

theorem writeResultFlags_pc : ∃ t, writeResultFlags pcReg v f s = .next t ∧ t.pc = v + 1#16 := by
  obtain ⟨t, ht, hw⟩ := writeResultFlags_spec pcReg v f s
  exact ⟨t, ht, hw.pc⟩

theorem writeResult_pc : ∃ t, writeResult pcReg v s = .next t ∧ t.pc = v + 1#16 :=
  writeResultFlags_pc v s.flags s

/-- Writing the pc its own value changes nothing. -/
theorem setPc_pc : s.setPc s.pc = s := by
  simp [State.setPc, State.pc, State.setReg, State.reg]

/-- A jump to the address in register 15 jumps to itself. -/
theorem takeJump_pcReg : takeJump pcReg s = .next s := congrArg Host.Outcome.next (setPc_pc s)

theorem jumpIf_pcReg {cc : FlagCond} {s : State} (h : condHolds cc s.flags = true) : jumpIf cc pcReg s = .next s := by
  rw [jumpIf_of_holds pcReg h, takeJump_pcReg]

end

/-- Settles O18: every result written to the pc is advanced by one; an immediate is far below the wrap. -/
theorem nonJumpWriteToPcAdvances : Obligations.NonJumpWriteToPcAdvances := by
  unfold Obligations.NonJumpWriteToPcAdvances
  intro s imm8 r
  rw [← shlResult_eq, ← shrResult_eq, ← ashrResult_eq]
  refine ⟨?_, writeResult_pc _ s, writeResultFlags_pc _ _ s, writeResultFlags_pc _ _ s, writeResultFlags_pc _ _ s,
    writeResultFlags_pc _ _ s, writeResultFlags_pc _ _ s, writeResultFlags_pc _ _ s, writeResult_pc _ s,
    writeResult_pc _ s, writeResult_pc _ s, writeResult_pc _ s, writeResult_pc _ s⟩
  obtain ⟨t, ht, hpc⟩ := writeResult_pc (immediate imm8) s
  have := imm8.isLt
  have himm := immediate_toNat imm8
  refine ⟨t, ht, ?_⟩
  rw [hpc, BitVec.toNat_add_of_lt (by simp; omega), himm]
  rfl

/-- Settles O39: each result is the operation on the pc; a jump to register 15 keeps it. -/
theorem readingPcReadsOwnAddress : Obligations.ReadingPcReadsOwnAddress := by
  unfold Obligations.ReadingPcReadsOwnAddress
  intro d r s
  simp only [← shlResult_eq, ← shrResult_eq, ← ashrResult_eq]
  refine ⟨writeResultFlags_leaves d _ _ s, writeResult_leaves d _ s, writeResult_leaves d _ s, ?_⟩
  refine ⟨writeResultFlags_leaves d _ _ s, writeResultFlags_leaves d _ _ s, writeResultFlags_leaves d _ _ s,
    writeResultFlags_leaves d _ _ s, writeResultFlags_leaves d _ _ s, writeResult_leaves d _ s,
    writeResult_leaves d _ s, writeResult_leaves d _ s, ?_⟩
  refine ⟨writeResultFlags_leaves pcReg _ _ s, writeResultFlags_leaves pcReg _ _ s,
    writeResultFlags_leaves pcReg _ _ s, writeResultFlags_leaves pcReg _ _ s, writeResultFlags_leaves pcReg _ _ s,
    writeResult_leaves pcReg _ s, writeResult_leaves pcReg _ s, writeResult_leaves pcReg _ s, ?_⟩
  refine ⟨writeResult_leaves d _ s, fun h => ?_, fun h => ?_, takeJump_pcReg s, ?_⟩
  · obtain ⟨t, ht, hstored, -⟩ := exec_st_words pcReg r h
    exact ⟨t, ht, hstored⟩
  · obtain ⟨t, ht, hstored, -⟩ := exec_st_words r pcReg h
    exact ⟨t, ht, hstored⟩
  · exact ⟨jumpIf_pcReg (cc := .carry), fun h => jumpIf_pcReg (cc := .noCarry) (congrArg Bool.not h),
      jumpIf_pcReg (cc := .zero), fun h => jumpIf_pcReg (cc := .notZero) (congrArg Bool.not h),
      jumpIf_pcReg (cc := .sign), fun h => jumpIf_pcReg (cc := .notSign) (congrArg Bool.not h),
      jumpIf_pcReg (cc := .overflow), fun h => jumpIf_pcReg (cc := .noOverflow) (congrArg Bool.not h)⟩

end Sys2Proof.Machine
end

section
/-! Every instruction inverted once (`Executes`), and what follows for frames, flags, steps and the invariant
(10_state.md, 40_execution_cycle.md, 60_exceptions.md). -/

namespace Sys2Proof.Machine

section
variable {i : Instr} {s t : State}

/-! ### What an instruction can do -/

theorem takeJump_eq_setPc (rt : Reg) (s : State) : takeJump rt s = .next (s.setPc (s.reg rt)) := rfl

/-- A jump, taken or not, sets the pc. -/
theorem jumpIf_eq_setPc (cc : FlagCond) (rt : Reg) (s : State) : ∃ v, jumpIf cc rt s = .next (s.setPc v) := by
  cases h : condHolds cc s.flags with
  | true => exact ⟨s.reg rt, jumpIf_of_holds rt h⟩
  | false => exact ⟨s.pc + 1#16, jumpIf_of_not_holds rt h⟩

/-- What an instruction can do: `halt` stops, a destination gets a result, `st` writes one word, and a jump, taken or not,
sets the pc. -/
inductive Executes (s : State) : Instr → State → Prop where
  | halt : Executes s .halt { s with run := .halted }
  | result {i : Instr} {d : Reg} (hd : destination i = some d) (v : Word) (f : Flags) :
      Executes s i (({ s with flags := f } : State).setReg d v).advancePc
  | store (ra rv : Reg) :
      Executes s (.st ra rv) ({ s with mem := memWrite s.mem (dataAddress s ra) (s.reg rv) } : State).advancePc
  | jump {i : Instr} (hi : i ≠ .halt) (v : Word) : Executes s i (s.setPc v)

/-- Every instruction gives a next state, by one of the four. -/
theorem exec_executes (i : Instr) (s : State) : ∃ t, exec i s = .next t ∧ Executes s i t := by
  cases i with
  | halt => exact ⟨_, rfl, .halt⟩
  | st ra rv => exact ⟨_, rfl, .store ra rv⟩
  | jp rt => exact ⟨_, takeJump_eq_setPc rt s, .jump (by simp) (s.reg rt)⟩
  | jpc rt | jpnc rt | jpz rt | jpnz rt | jps rt | jpns rt | jpo rt | jpno rt =>
    obtain ⟨v, hv⟩ := jumpIf_eq_setPc _ rt s
    exact ⟨_, hv, .jump (by simp) v⟩
  | li | ld | shl | shr | ashr | not | neg => exact ⟨_, rfl, .result rfl _ s.flags⟩
  | nop | or | and | xor | add | sub => exact ⟨_, rfl, .result rfl _ _⟩

theorem executes_of_exec (h : exec i s = .next t) : Executes s i t := by
  obtain ⟨u, hu, hexec⟩ := exec_executes i s
  cases hu.symm.trans h
  exact hexec

/-! ### The fields no instruction changes (60_exceptions.md R251) -/

theorem exec_imem (h : exec i s = .next t) : t.imem = s.imem := by
  cases executes_of_exec h <;> rfl

theorem exec_fault (h : exec i s = .next t) : t.fault = s.fault := by
  cases executes_of_exec h <;> rfl

theorem exec_run (h : exec i s = .next t) : t.run = if i = .halt then .halted else s.run := by
  cases executes_of_exec h with
  | halt => rfl
  | result hd v f =>
    have hi : i ≠ .halt := by rintro rfl; cases hd
    rw [if_neg hi]
    rfl
  | store ra rv => rfl
  | jump hi v =>
    rw [if_neg hi]
    rfl

/-! ### The data memory (20_memory.md R62) -/

/-- The memory after an instruction is as before, or one word is written at the store address. -/
theorem exec_mem (h : exec i s = .next t) :
    t.mem = s.mem ∨ ∃ a v, storeAddress i s = some a ∧ t.mem = memWrite s.mem a v := by
  cases executes_of_exec h with
  | halt | result | jump => exact .inl rfl
  | store ra rv => exact .inr ⟨dataAddress s ra, s.reg rv, rfl, rfl⟩

theorem exec_keeps_memWf (h : exec i s = .next t) (hs : memWf s.mem = true) : memWf t.mem = true := by
  obtain hm | ⟨a, v, -, hm⟩ := exec_mem h
  · exact hm ▸ hs
  · exact hm ▸ memWf_memWrite a v hs

/-! ### The flags (95_test_vectors.md, conventions) -/

/-- A sum that sets the overflow flag has bit 15 set, so it is not 0. -/
theorem addFlags_atMostOne (a b : Word) : (addFlags a b).atMostOne := by
  have hv : (a + b).msb = true → a + b ≠ 0#16 := by
    intro hm h0
    rw [h0] at hm
    cases hm
  refine ⟨Bool.and_false _, ?_, rfl⟩
  simp only [addFlags, addOverflow_eq]
  cases hm : (a + b).msb with
  | false => simp
  | true => simp [hv hm]

theorem subFlags_atMostOne (a b : Word) : (subFlags a b).atMostOne := by
  refine ⟨?_, Bool.and_false _, Bool.and_false _⟩
  simp only [subFlags, subSign, subSReading]
  cases h : a - b == 0#16 with
  | false => rfl
  | true => simp [bne, h]

theorem exec_flags_atMostOne (h : exec i s = .next t) (hs : s.flags.atMostOne) : t.flags.atMostOne := by
  cases hi : writesFlags i with
  | false =>
    rw [exec_keeps_flags hi h]
    exact hs
  | true =>
    cases i with
    | nop =>
      rw [writeResultFlags_flags h]
      decide
    | or | and | xor =>
      rw [writeResultFlags_flags h]
      exact ⟨Bool.and_false _, Bool.and_false _, rfl⟩
    | add =>
      rw [writeResultFlags_flags h]
      exact addFlags_atMostOne _ _
    | sub =>
      rw [writeResultFlags_flags h]
      exact subFlags_atMostOne _ _
    | halt | li | ld | st | jp => cases hi
    | jpc | jpnc | jpz | jpnz | jps | jpns | jpo | jpno => cases hi
    | shl | shr | ashr | not | neg => cases hi

/-! ### What a step can do -/

theorem step_of_running (hr : s.run = .running) : step s = runningStep s := by
  simp only [step, engineStep, hr]

theorem step_of_decode {w : Word} (hr : s.run = .running) (hf : s.iFetch s.pc = some w) (hd : decode w = .ok i) :
    step s = exec i s := by
  simp only [step_of_running hr, runningStep, hf, hd]

theorem step_of_unassigned {w : Word} (hr : s.run = .running) (hf : s.iFetch s.pc = some w)
    (hd : decode w = .error .unassigned) : step s = .next (s.raise .illegalInstruction (some w)) := by
  simp only [step_of_running hr, runningStep, hf, hd]

theorem step_of_no_fetch (hr : s.run = .running) (hf : s.iFetch s.pc = none) :
    step s = .next (s.raise .fetchOutOfRange none) := by
  simp only [step_of_running hr, runningStep, hf]

/-- A step that gives a next state starts in RUNNING, and enters one of the two faults or executes the instruction
fetched. -/
theorem step_eq_next_cases (h : step s = .next t) :
    s.run = .running ∧
    ((s.iFetch s.pc = none ∧ t = s.raise .fetchOutOfRange none) ∨
     (∃ w, s.iFetch s.pc = some w ∧ decode w = .error .unassigned ∧ t = s.raise .illegalInstruction (some w)) ∨
     (∃ w i, s.iFetch s.pc = some w ∧ decode w = .ok i ∧ exec i s = .next t)) := by
  refine ⟨run_of_step_eq_next h, ?_⟩
  obtain ⟨-, hf, e⟩ | ⟨w, ⟨⟩, -, hf, hd, e⟩ | ⟨w, i, -, hf, hd, e⟩ | ⟨-, e⟩ | ⟨-, e⟩ := step_cases s
  · cases e.symm.trans h
    exact .inl ⟨hf, rfl⟩
  · cases e.symm.trans h
    exact .inr (.inl ⟨w, hf, hd, rfl⟩)
  · exact .inr (.inr ⟨w, i, hf, hd, e.symm.trans h⟩)
  · cases e.symm.trans h
  · cases e.symm.trans h

/-- In RUNNING there is a step: fault entry and every instruction give a next state. -/
theorem exists_step_of_running (hr : s.run = .running) : ∃ t, step s = .next t := by
  cases hf : s.iFetch s.pc with
  | none => exact ⟨_, step_of_no_fetch hr hf⟩
  | some w =>
    cases hd : decode w with
    | error e => exact ⟨_, step_of_unassigned hr hf hd⟩
    | ok i =>
      obtain ⟨t, ht, -⟩ := exec_executes i s
      exact ⟨t, (step_of_decode hr hf hd).trans ht⟩

theorem step_of_halted (hr : s.run = .halted) : step s = .fault .haltedHasNoStep := by
  simp only [step, engineStep, hr]

theorem step_of_faulted (hr : s.run = .faulted) : step s = .fault .faultedHasNoStep := by
  simp only [step, engineStep, hr]

/-- A run of steps from a state without a step stays there. -/
theorem runSteps_of_fault {e : Fault} (h : step s = .fault e) (n : Nat) : runSteps n s = s := by
  cases n with
  | zero => rfl
  | succ n => simp only [runSteps, h]

/-- A run of steps from a state that steps to itself stays there. -/
theorem runSteps_of_step_self (h : step s = .next s) (n : Nat) : runSteps n s = s := by
  induction n with
  | zero => rfl
  | succ n ih => simp only [runSteps, h, ih]

end

/-! ### The frames of the instructions -/

/-- Settles O15: each field by its law, from the one list of what an instruction can do. -/
theorem everyInstructionCompletes : Obligations.EveryInstructionCompletes := by
  unfold Obligations.EveryInstructionCompletes
  intro i s
  obtain ⟨t, ht, -⟩ := exec_executes i s
  exact ⟨t, ht, exec_fault ht, exec_imem ht, exec_run ht⟩

/-- Settles O40: the destination is the only register an instruction writes besides the pc. -/
theorem registerFrame : Obligations.RegisterFrame := by
  unfold Obligations.RegisterFrame
  intro i s t r h hd hr
  cases executes_of_exec h with
  | halt => rfl
  | result hdest v f =>
    rename_i d
    have hrd : r ≠ d := by rintro rfl; exact hd hdest
    rw [reg_setReg_advancePc _ d r v hrd hr, reg_withFlags]
  | store => rw [reg_advancePc_of_ne _ r hr, reg_withMem]
  | jump _ v => exact reg_setPc_of_ne s r v hr

/-- Settles O41: a word write keeps every byte but the two of its word. -/
theorem memoryFrame : Obligations.MemoryFrame := by
  unfold Obligations.MemoryFrame
  intro i s t k h hk
  obtain hm | ⟨a, v, ha, hm⟩ := exec_mem h
  · rw [hm]
  · obtain ⟨hhigh, hlow⟩ := hk a ha
    rw [hm, readByte_memWrite_of_ne s.mem a v k hhigh hlow]

/-- Settles O42: the flags each class of instructions leaves. -/
theorem flagFrame : Obligations.FlagFrame := fun _ _ _ h hi => exec_keeps_flags hi h

/-- Settles O43: of an instruction that is no conditional jump, the result, the word stored and the flags it writes are
computed from registers and memory. -/
theorem onlyConditionalJumpsReadFlags : Obligations.OnlyConditionalJumpsReadFlags := by
  unfold Obligations.OnlyConditionalJumpsReadFlags
  intro i s t f hi h
  cases i with
  | nop | or | and | xor | add | sub => cases h; exact ⟨_, rfl, rfl, rfl, rfl, rfl, rfl, fun _ => rfl⟩
  | halt | li | ld | st | jp => cases h; exact ⟨_, rfl, rfl, rfl, rfl, rfl, rfl, nofun⟩
  | shl | shr | ashr | not | neg => cases h; exact ⟨_, rfl, rfl, rfl, rfl, rfl, rfl, nofun⟩
  | jpc | jpnc | jpz | jpnz | jps | jpns | jpo | jpno => cases hi

/-- A jump, taken or not, is decided by the flags and goes where the registers say. -/
theorem jumpIf_withRunAndFault {cc : FlagCond} {rt : Reg} {s t : State} (u : RunState) (g : Option FaultRecord)
    (h : jumpIf cc rt s = .next t) :
    ∃ t', jumpIf cc rt { s with run := u, fault := g } = .next t' ∧ t'.regs = t.regs ∧ t'.flags = t.flags ∧
      t'.mem = t.mem ∧ t'.imem = t.imem := by
  cases hc : condHolds cc s.flags with
  | true =>
    cases (jumpIf_of_holds rt hc).symm.trans h
    exact ⟨_, jumpIf_of_holds rt hc, rfl, rfl, rfl, rfl⟩
  | false =>
    cases (jumpIf_of_not_holds rt hc).symm.trans h
    exact ⟨_, jumpIf_of_not_holds rt hc, rfl, rfl, rfl, rfl⟩

/-- Settles O44: only the conditional jumps decide anything, and they decide it by a flag. -/
theorem runStateIsInvisible : Obligations.RunStateIsInvisible := by
  unfold Obligations.RunStateIsInvisible
  intro i s t u g h
  cases i with
  | jpc | jpnc | jpz | jpnz | jps | jpns | jpo | jpno => exact jumpIf_withRunAndFault u g h
  | halt | li | ld | st | jp => cases h; exact ⟨_, rfl, rfl, rfl, rfl, rfl⟩
  | nop | or | and | xor | add | sub => cases h; exact ⟨_, rfl, rfl, rfl, rfl, rfl⟩
  | shl | shr | ashr | not | neg => cases h; exact ⟨_, rfl, rfl, rfl, rfl, rfl⟩

/-! ### The execution cycle -/

/-- Settles O9: fetch and decode are the step's only tests in RUNNING. -/
theorem stepRunsDecodedInstruction : Obligations.StepRunsDecodedInstruction := fun _ _ _ => step_of_decode

/-- Settles O10: there is no word at or past `PROG_LEN`. -/
theorem fetchPastEndEntersFault : Obligations.FetchPastEndEntersFault := by
  unfold Obligations.FetchPastEndEntersFault
  intro s hr hlen
  have no_word : s.iFetch s.pc = none := (iFetch_eq_none s s.pc).mpr hlen
  exact ⟨_, step_of_no_fetch hr no_word, rfl, rfl, rfl, rfl, rfl, rfl, fun _ => rfl⟩

/-- Settles O11: the word is fetched, and raising the fault writes the run state and the record only. -/
theorem unassignedWordEntersFault : Obligations.UnassignedWordEntersFault := by
  unfold Obligations.UnassignedWordEntersFault
  intro s w hr hf hd
  exact ⟨_, step_of_unassigned hr hf hd, rfl, rfl, rfl, rfl, rfl, rfl, fun _ => rfl⟩

/-- Settles O12: the three run states, and a run of steps that stops where it starts. -/
theorem stepsExistOnlyInRunning : Obligations.StepsExistOnlyInRunning := by
  unfold Obligations.StepsExistOnlyInRunning
  refine fun s => ⟨step_of_halted, step_of_faulted, exists_step_of_running, fun hr => ?_⟩
  cases hrun : s.run with
  | running => exact absurd hrun hr
  | halted => exact runSteps_of_fault (step_of_halted hrun)
  | faulted => exact runSteps_of_fault (step_of_faulted hrun)

/-- Settles O13: an instruction leaves RUNNING only for HALTED, so the step entered one of the two faults. -/
theorem faultEntryIsPrecise : Obligations.FaultEntryIsPrecise := by
  unfold Obligations.FaultEntryIsPrecise
  intro s t h ht
  obtain ⟨hr, ⟨hf, rfl⟩ | ⟨w, hf, hd, rfl⟩ | ⟨w, i, -, -, hi⟩⟩ := step_eq_next_cases h
  · exact ⟨rfl, rfl, rfl, fun _ => rfl, .inl ⟨hf, rfl⟩⟩
  · exact ⟨rfl, rfl, rfl, fun _ => rfl, .inr ⟨w, hf, hd, rfl⟩⟩
  · have hrun := exec_run hi
    rw [ht, hr] at hrun
    split at hrun <;> cases hrun

/-- Settles O14: a fault entry does not end in HALTED, and the word of `halt` is the only one that decodes to it. -/
theorem onlyHaltHalts : Obligations.OnlyHaltHalts := by
  unfold Obligations.OnlyHaltHalts
  intro s t h ht
  obtain ⟨hr, ⟨-, rfl⟩ | ⟨w, -, -, rfl⟩ | ⟨w, i, hf, hd, hi⟩⟩ := step_eq_next_cases h
  · cases ht
  · cases ht
  · have hrun := exec_run hi
    rw [ht, hr] at hrun
    split at hrun
    next is_halt =>
      subst is_halt
      cases hi
      obtain rfl : encode .halt = w := encodeOfDecode w .halt hd
      exact ⟨hr, hf, rfl⟩
    next => cases hrun

/-- Settles O20: neither a fault entry nor an instruction writes the instruction memory. -/
theorem stepKeepsInstructionMemory : Obligations.StepKeepsInstructionMemory := by
  unfold Obligations.StepKeepsInstructionMemory
  intro s t h
  have himem : t.imem = s.imem := by
    obtain ⟨-, ⟨-, rfl⟩ | ⟨w, -, -, rfl⟩ | ⟨w, i, -, -, hi⟩⟩ := step_eq_next_cases h
    · rfl
    · rfl
    · exact exec_imem hi
  exact ⟨himem, congrArg List.length himem⟩

/-- Settles O53: 0xC00F is `jp r15`, whose target is its own address. -/
theorem jumpToItselfHangs : Obligations.JumpToItselfHangs := by
  unfold Obligations.JumpToItselfHangs
  intro s hr hf
  have hself : step s = .next s := (step_of_decode hr hf (decodeOfEncode (.jp pcReg))).trans (takeJump_pcReg s)
  refine ⟨hself, fun n => ?_⟩
  rw [runSteps_of_step_self hself n]
  exact ⟨rfl, hr⟩

/-! ### The invariant -/

section
variable {i : Instr} {s t : State}

/-- Fault entry keeps the invariant: the record appears together with FAULTED. -/
theorem State.Inv.raise (hs : s.Inv) (c : FaultCause) (w : Option Word) : (s.raise c w).Inv where
  memory := hs.memory
  image := hs.image
  carry := hs.carry
  flags := hs.flags
  record := by simp

/-- An instruction executed in RUNNING keeps the invariant: it leaves the empty record, and does not enter FAULTED. -/
theorem State.Inv.exec (hs : s.Inv) (hr : s.run = .running) (h : exec i s = .next t) : t.Inv where
  memory := exec_keeps_memWf h hs.memory
  image := by
    rw [exec_imem h]
    exact hs.image
  carry := by
    obtain hc | hc := exec_carry h
    · exact hc.trans hs.carry
    · exact hc
  flags := exec_flags_atMostOne h hs.flags
  record := by
    have no_record := hs.record
    rw [hr] at no_record
    rw [exec_fault h, exec_run h, hr, no_record]
    split <;> simp

end

/-- Settles O51: fault entry and every instruction keep the invariant. -/
theorem everyStepKeepsInvariant : Obligations.EveryStepKeepsInvariant := by
  unfold Obligations.EveryStepKeepsInvariant
  intro s t hs h
  obtain ⟨hr, ⟨-, rfl⟩ | ⟨w, -, -, rfl⟩ | ⟨w, i, -, -, hi⟩⟩ := step_eq_next_cases h
  · exact hs.raise _ _
  · exact hs.raise _ _
  · exact hs.exec hr hi

theorem hostReset_inv {s : State} (h : s.imem.length ≤ Config.maxProgLen) : (hostReset s).Inv where
  memory := memWf_reset
  image := h
  carry := rfl
  flags := ⟨rfl, rfl, rfl⟩
  record := by simp

/-- Settles O52: a load accepts only an image that fits. -/
theorem invariantHoldsAtReset : Obligations.InvariantHoldsAtReset := by
  unfold Obligations.InvariantHoldsAtReset
  refine ⟨hostReset_inv (s := .reset) (Nat.zero_le _), fun s => hostReset_inv, fun img s t h => ?_⟩
  obtain ⟨-, himg, rfl⟩ := (hostLoad_eq_some s img t).mp h
  exact hostReset_inv (of_decide_eq_true himg)

/-! ### Reset and load (70_reset_and_hazards.md) -/

/-- Settles O48: the reset laws of the fields; a second reset finds the same image. -/
theorem hostResetRestoresEverything : Obligations.HostResetRestoresEverything := by
  unfold Obligations.HostResetRestoresEverything
  intro s
  exact ⟨hostReset_reg s, rfl, memRead_reset, rfl, rfl, rfl, rfl⟩

/-- An image that fits is addressed word by word. -/
theorem iFetch_ofNat {s : State} {n : Nat} (h : n < 65536) : s.iFetch (BitVec.ofNat 16 n) = s.imem[n]? := by
  rw [State.iFetch, BitVec.toNat_ofNat, Nat.mod_eq_of_lt h]

/-- Settles O49: the two conditions of a load, each refusing it where it fails. -/
theorem hostLoadsOnlyOutsideRunning : Obligations.HostLoadsOnlyOutsideRunning := by
  unfold Obligations.HostLoadsOnlyOutsideRunning
  refine fun img s => ⟨fun hr => ?_, fun hlen => ?_, fun hr hlen => ?_⟩
  · exact if_neg fun ⟨hne, _⟩ => hne hr
  · exact if_neg fun ⟨_, hfits⟩ => Nat.not_le_of_lt hlen (of_decide_eq_true hfits)
  · have hload := (hostLoad_eq_some s img _).mpr ⟨hr, decide_eq_true hlen, rfl⟩
    exact ⟨_, hload, rfl, fun n hn => iFetch_ofNat (by omega)⟩

end Sys2Proof.Machine
end

section
/-! The canonical form of the data memory: a canonical list is determined by its bytes, and its bytes by its words. -/

namespace Sys2Proof.Machine

theorem memWfFrom_cons_iff (lo a : Nat) (b : BitVec 8) (m : List Host.Cell) :
    memWfFrom lo ((a, b) :: m) = true ↔ lo ≤ a ∧ a < memCells ∧ b ≠ unlistedByte ∧ memWfFrom (a + 1) m = true := by
  simp only [memWfFrom, Bool.and_eq_true, decide_eq_true_eq, and_assoc]

/-- The first cell of a canonical list is the lowest address that does not read as unlisted. -/
theorem head_le_of_readByte_ne {lo a k : Nat} {b : BitVec 8} {m : List Host.Cell}
    (h : memWfFrom lo ((a, b) :: m) = true) (hk : readByte ((a, b) :: m) k ≠ unlistedByte) : a ≤ k := by
  obtain ⟨-, hcell, hb, hm⟩ := (memWfFrom_cons_iff lo a b m).mp h
  by_contra hlt
  have from_head : memWfFrom a ((a, b) :: m) = true := (memWfFrom_cons_iff a a b m).mpr ⟨Nat.le_refl a, hcell, hb, hm⟩
  exact hk (readByte_below from_head (by omega))

theorem readByte_head (a : Nat) (b : BitVec 8) (m : List Host.Cell) : readByte ((a, b) :: m) a = b := if_pos rfl

/-- Canonical lists with the same bytes have the same first cell, and so on along the list. -/
theorem eq_of_readByte_eq {lo : Nat} {m m' : List Host.Cell} (h : memWfFrom lo m = true) (h' : memWfFrom lo m' = true)
    (e : ∀ k, readByte m k = readByte m' k) : m = m' := by
  induction m generalizing lo m' with
  | nil =>
    cases m' with
    | nil => rfl
    | cons c' rest' =>
      obtain ⟨a', b'⟩ := c'
      obtain ⟨-, -, hb', -⟩ := (memWfFrom_cons_iff lo a' b' rest').mp h'
      exact absurd ((readByte_head a' b' rest').symm.trans (e a').symm) hb'
  | cons c rest ih =>
    obtain ⟨a, b⟩ := c
    obtain ⟨-, -, hb, hrest⟩ := (memWfFrom_cons_iff lo a b rest).mp h
    cases m' with
    | nil => exact absurd ((readByte_head a b rest).symm.trans (e a)) hb
    | cons c' rest' =>
      obtain ⟨a', b'⟩ := c'
      obtain ⟨-, -, hb', hrest'⟩ := (memWfFrom_cons_iff lo a' b' rest').mp h'
      have hle : a ≤ a' := head_le_of_readByte_ne h (by rwa [e a', readByte_head])
      have hge : a' ≤ a := head_le_of_readByte_ne h' (by rwa [← e a, readByte_head])
      obtain rfl : a = a' := Nat.le_antisymm hle hge
      obtain rfl : b = b' := by rw [← readByte_head a b rest, e a, readByte_head]
      have tails : ∀ k, readByte rest k = readByte rest' k := by
        intro k
        by_cases hk : k < a + 1
        · rw [readByte_below hrest hk, readByte_below hrest' hk]
        · have hne : a ≠ k := by omega
          have := e k
          rwa [readByte_cons, readByte_cons, if_neg hne, if_neg hne] at this
      rw [ih hrest hrest' tails]

/-- A canonical memory lists no cell past its end. -/
theorem readByte_of_ge {lo k : Nat} {m : List Host.Cell} (h : memWfFrom lo m = true) (hk : memCells ≤ k) :
    readByte m k = unlistedByte := by
  induction m generalizing lo with
  | nil => rfl
  | cons c rest ih =>
    obtain ⟨a, b⟩ := c
    obtain ⟨-, hcell, -, hrest⟩ := (memWfFrom_cons_iff lo a b rest).mp h
    rw [readByte_cons, if_neg (by omega), ih hrest]

theorem readByte_highCell (m : List Host.Cell) (a : Word) : readByte m (highCell a) = (memRead m a).extractLsb' 8 8 :=
  BitVec.extractLsb'_append_eq_left.symm

theorem readByte_lowCell (m : List Host.Cell) (a : Word) : readByte m (lowCell a) = (memRead m a).extractLsb' 0 8 :=
  BitVec.extractLsb'_append_eq_right.symm

/-- Every cell of the memory is one of the two of a word. -/
theorem exists_highCell_or_lowCell {k : Nat} (h : k < memCells) : ∃ a : Word, k = highCell a ∨ k = lowCell a := by
  simp only [memCells, Config.dataWords] at h
  refine ⟨BitVec.ofNat 16 (k / 2), ?_⟩
  simp only [highCell, lowCell, BitVec.toNat_ofNat]
  omega

/-- Settles O46: equal words are equal bytes inside the memory, and past its end no canonical list has a cell. -/
theorem canonicalMemoriesAreEqual : Obligations.CanonicalMemoriesAreEqual := by
  unfold Obligations.CanonicalMemoriesAreEqual
  intro m m' h h' e
  refine eq_of_readByte_eq h h' fun k => ?_
  by_cases hk : k < memCells
  · obtain ⟨a, rfl | rfl⟩ := exists_highCell_or_lowCell hk
    · rw [readByte_highCell, readByte_highCell, e a]
    · rw [readByte_lowCell, readByte_lowCell, e a]
  · rw [readByte_of_ge h (by omega), readByte_of_ge h' (by omega)]

end Sys2Proof.Machine
end

section
/-! Register operands, duplicate labels and whole programs (30_encoding.md sections 5 to 8). -/

namespace Sys2Proof.Machine

/-! ### Duplicate declarations (R132) -/

theorem declarationLines_append {tok : Text} {pre : List Text} (n : Nat) (rest : List Text)
    (h : ∀ x ∈ pre, trim x ≠ tok) :
    declarationLines tok n (pre ++ rest) = declarationLines tok (n + pre.length) rest := by
  induction pre generalizing n with
  | nil => rfl
  | cons x pre ih =>
    obtain ⟨hx, hpre⟩ := List.forall_mem_cons.mp h
    rw [List.cons_append, declarationLines, if_neg hx, ih _ hpre, List.length_cons, Nat.add_right_comm, Nat.add_assoc]

theorem mem_declarationLines {tok : Text} {m n : Nat} {lines : List Text} :
    m ∈ declarationLines tok n lines ↔ ∃ k x, lines[k]? = some x ∧ trim x = tok ∧ m = n + k := by
  induction lines generalizing n with
  | nil => simp [declarationLines]
  | cons l ls ih =>
    have later : (∃ k x, (l :: ls)[k]? = some x ∧ trim x = tok ∧ m = n + k) ↔
        (trim l = tok ∧ m = n) ∨ m ∈ declarationLines tok (n + 1) ls := by
      rw [ih]
      constructor
      · rintro ⟨k, x, hk, hx, rfl⟩
        cases k with
        | zero => cases hk; exact .inl ⟨hx, rfl⟩
        | succ k => exact .inr ⟨k, x, hk, hx, by omega⟩
      · rintro (⟨hl, rfl⟩ | ⟨k, x, hk, hx, rfl⟩)
        · exact ⟨0, l, rfl, hl, rfl⟩
        · exact ⟨k + 1, x, hk, hx, by omega⟩
    rw [later, declarationLines]
    split
    next hl => simp [hl]
    next hl => simp [hl]

/-- The declarations after the first one are the duplicates. -/
theorem advisoryDuplicates_of_declared {pre post : List Text} {l tok : Text} (hpre : ∀ x ∈ pre, trim x ≠ tok)
    (hl : trim l = tok) :
    advisoryDuplicates (pre ++ l :: post) tok = declarationLines tok (pre.length + 2) post := by
  rw [advisoryDuplicates, declarationLines_append 1 _ hpre, declarationLines, if_pos hl, List.drop_one, List.tail_cons,
    Nat.add_comm 1]

/-- Settles O55: the declarations after the first are those among the later lines. -/
theorem firstDeclarationWins : Obligations.FirstDeclarationWins := by
  unfold Obligations.FirstDeclarationWins
  intro pre post l name hl hpre
  obtain ⟨htrim, rest, rfl⟩ := trim_of_label hl
  refine ⟨resolveLabel_of_declared hpre htrim, fun n => ?_, fun x hx => not_isExecutable_of_colon hx⟩
  rw [advisoryDuplicates_of_declared hpre htrim]
  exact mem_declarationLines

/-! ### Register operands (R124) -/

/-- Every character of a text that reads as a number is a digit. -/
theorem digitValue_isSome_of_digitsFrom {radix acc n : Nat} {t : Text} (h : digitsFrom radix acc t = some n) :
    ∀ c ∈ t, (digitValue radix c).isSome = true := by
  induction t generalizing acc with
  | nil => nofun
  | cons c t ih =>
    rw [digitsFrom] at h
    split at h
    next => cases h
    next d hd => exact List.forall_mem_cons.mpr ⟨by rw [hd]; rfl, ih h⟩

theorem digitValue_isSome_of_parseDigits {radix n : Nat} {t : Text} (h : parseDigits radix t = some n) :
    ∀ c ∈ t, (digitValue radix c).isSome = true := by
  cases t with
  | nil => cases h
  | cons c t => exact digitValue_isSome_of_digitsFrom h

theorem not_mem_of_parseDigits {radix n : Nat} {t : Text} {c : Char} (h : parseDigits radix t = some n)
    (hc : digitValue radix c = none) : c ∉ t := by
  intro hmem
  have := digitValue_isSome_of_parseDigits h c hmem
  rw [hc] at this
  cases this

theorem stripComma_of_not_mem {t : Text} (h : ',' ∉ t) : stripComma t = t := by
  unfold stripComma
  split
  next r hr => exact absurd (List.mem_reverse.mp (hr ▸ List.mem_cons_self)) h
  next => rfl

theorem stripParens_of_not_mem {t : Text} (h : '(' ∉ t) : stripParens t = t := by
  unfold stripParens
  split
  next => exact absurd List.mem_cons_self h
  next => rfl

theorem stripLetter_of_not_mem {t : Text} (h : 'r' ∉ t) : stripLetter t = t := by
  unfold stripLetter
  split
  next => exact absurd List.mem_cons_self h
  next => rfl

section
variable {digits : Text} {n : Nat}

/-- A number has no decoration to remove. -/
theorem strip_digits (h : parseDigits 10 digits = some n) :
    stripLetter (stripParens (stripComma digits)) = digits := by
  rw [stripComma_of_not_mem (not_mem_of_parseDigits h rfl), stripParens_of_not_mem (not_mem_of_parseDigits h rfl),
    stripLetter_of_not_mem (not_mem_of_parseDigits h rfl)]

/-- A number after the letter `r` has that letter to remove. -/
theorem strip_letter_digits (h : parseDigits 10 digits = some n) :
    stripLetter (stripParens (stripComma ('r' :: digits))) = digits := by
  have no_comma : ',' ∉ 'r' :: digits := by
    simpa using not_mem_of_parseDigits h (c := ',') rfl
  rw [stripComma_of_not_mem no_comma]
  rfl

theorem registerOperand_digits_rangeError (h : parseDigits 10 digits = some n) (hn : 15 < n) :
    registerOperand digits = .error .rangeError ∧ registerOperand ('r' :: digits) = .error .rangeError ∧
      registerOperand (parenthesised ('r' :: digits)) = .error .rangeError := by
  have too_big : ¬ n < 16 := by omega
  refine ⟨registerOperand_rangeError too_big ?_, registerOperand_rangeError too_big ?_,
    registerOperand_rangeError too_big ?_⟩
  · rw [strip_digits h, h]
  · rw [strip_letter_digits h, h]
  · rw [stripParens_stripComma_parenthesised]
    exact h

end

theorem registerOperand_regDigits (r : Reg) : registerOperand (regDigits r) = .ok r := by
  have h := parseDigits_regDigits r
  exact registerOperand_of_number r.isLt (by rw [strip_digits h, h])

/-! ### Lines with a register operand in error (R128) -/

section
variable (lines : List Text) {m r q : Text} {e : AsmErrorKind}

theorem assembleTokens_li_error (v : Text) (h : registerOperand r = .error e) :
    assembleTokens lines ["li".toList, r, v] = .error e := by
  rw [assembleTokens_of_lookup (form := .registerImmediate .li) lines [r, v] rfl]
  simp only [assembleOperands, h]

theorem assembleTokens_oneRegister_error {mk : Reg → Instr} (hm : mnemonicTable.lookup m = some (.oneRegister mk))
    (h : registerOperand r = .error e) : assembleTokens lines [m, r] = .error e := by
  rw [assembleTokens_of_lookup lines [r] hm]
  simp only [assembleOperands, h]

theorem assembleTokens_twoRegisters_error_first {mk : Reg → Reg → Instr}
    (hm : mnemonicTable.lookup m = some (.twoRegisters mk)) (h : registerOperand r = .error e) :
    assembleTokens lines [m, r, q] = .error e := by
  rw [assembleTokens_of_lookup lines [r, q] hm]
  simp only [assembleOperands, h]

theorem assembleTokens_twoRegisters_error_second {mk : Reg → Reg → Instr} {r1 : Reg}
    (hm : mnemonicTable.lookup m = some (.twoRegisters mk)) (hr : registerOperand r = .ok r1)
    (h : registerOperand q = .error e) : assembleTokens lines [m, r, q] = .error e := by
  rw [assembleTokens_of_lookup lines [r, q] hm]
  simp only [assembleOperands, hr, h]

end

theorem lookup_twoRegisters :
    ∀ m ∈ ["ld", "st", "nop", "or", "and", "xor", "add", "sub", "shl", "shr", "ashr", "not", "neg"],
      ∃ mk, mnemonicTable.lookup m.toList = some (.twoRegisters mk) := by
  intro m hm
  fin_cases hm <;> exact ⟨_, rfl⟩

theorem lookup_oneRegister :
    ∀ m ∈ ["jp", "jpc", "jpnc", "jpz", "jpnz", "jps", "jpns", "jpo", "jpno"],
      ∃ mk, mnemonicTable.lookup m.toList = some (.oneRegister mk) := by
  intro m hm
  fin_cases hm <;> exact ⟨_, rfl⟩

/-- Settles O58: the operand's outcome in each spelling, and the line's outcome in each operand form. -/
theorem registerOperandRange : Obligations.RegisterOperandRange := by
  unfold Obligations.RegisterOperandRange
  refine ⟨fun r => ⟨registerOperand_regName r, registerOperand_parenthesised_regName r, registerOperand_regDigits r⟩,
    fun tok n h hn => registerOperand_rangeError (by omega) h,
    fun digits n => registerOperand_digits_rangeError, fun lines bad ok v r hbad hok => ?_⟩
  refine ⟨assembleTokens_li_error lines v hbad, fun m hm => ?_, fun m hm => ?_⟩
  · obtain ⟨mk, hmk⟩ := lookup_twoRegisters m hm
    exact ⟨assembleTokens_twoRegisters_error_first lines hmk hbad,
      assembleTokens_twoRegisters_error_second lines hmk hok hbad⟩
  · obtain ⟨mk, hmk⟩ := lookup_oneRegister m hm
    exact assembleTokens_oneRegister_error lines hmk hbad

/-! ### Programs (R134, R141) -/

/-- The executable lines of a program that assembles are its instructions, one for one and in order. -/
theorem assembleFrom_forall₂ {lines ls : List Text} {n : Nat} {is : List Instr} (h : assembleFrom lines n ls = .ok is) :
    List.Forall₂ (fun l i => assembleTokens lines (tokens (trim l)) = .ok i) (ls.filter isExecutable) is := by
  induction ls generalizing n is with
  | nil => cases h; exact .nil
  | cons l ls ih =>
    cases hl : classify l with
    | executable t =>
      obtain ⟨i, js, hi, hjs, rfl⟩ := (assembleFrom_cons_eq_ok hl).mp h
      have is_executable : isExecutable l = true := by simp only [isExecutable, hl]
      rw [List.filter_cons_of_pos is_executable]
      exact .cons (by rw [trim_of_executable hl, hi]) (ih hjs)
    | blank | comment | label =>
      have not_executable : isExecutable l = false := by simp only [isExecutable, hl]
      rw [assembleFrom_cons_of_not_isExecutable _ _ _ not_executable] at h
      rw [List.filter_cons_of_neg (by simp [not_executable])]
      exact ih h

theorem assemble_eq_ok {program : Text} {ws : List Word} (h : assemble program = .ok ws) :
    ∃ is, assembleInstrs (splitLines program) = .ok is ∧ ws = is.map encode := by
  unfold assemble at h
  split at h
  next => cases h
  next is his => cases h; exact ⟨is, his, rfl⟩

/-- Settles O59: line by line, then encoded; the codec's round trip decodes each word. -/
theorem assembledImageIsInProgramOrder : Obligations.AssembledImageIsInProgramOrder := by
  unfold Obligations.AssembledImageIsInProgramOrder
  intro program ws h
  obtain ⟨is, his, rfl⟩ := assemble_eq_ok h
  have lines_instrs := assembleFrom_forall₂ his
  have hlen := lines_instrs.length_eq
  refine ⟨by rw [List.length_map, List.countP_eq_length_filter, hlen], fun n l hl => ?_⟩
  obtain ⟨hn, rfl⟩ := List.getElem?_eq_some_iff.mp hl
  have hn' : n < is.length := hlen ▸ hn
  exact ⟨is[n], lines_instrs.get hn hn', by rw [List.getElem?_map, List.getElem?_eq_getElem hn']; rfl,
    decodeOfEncode is[n]⟩

end Sys2Proof.Machine
end

section
/-! The text of an image and its reader (30_encoding.md R140): the reader's tokens are the rendered words. -/

namespace Sys2Proof.Machine

/-! ### Tokens across lines -/

/-- Characters that do not separate are collected, in reverse. -/
theorem tokensFrom_append {sep : Char → Bool} {u : Text} (cur t : Text) (h : ∀ c ∈ u, sep c = false) :
    tokensFrom sep cur (u ++ t) = tokensFrom sep (u.reverse ++ cur) t := by
  induction u generalizing cur with
  | nil => rfl
  | cons c u ih =>
    obtain ⟨hc, hu⟩ := List.forall_mem_cons.mp h
    rw [List.cons_append, tokensFrom, if_neg (by simp [hc]), ih _ hu, List.reverse_cons, List.append_assoc]
    rfl

theorem emitToken_of_ne_nil {cur : Text} (rest : List Text) (h : cur ≠ []) :
    emitToken cur rest = cur.reverse :: rest := by
  cases cur with
  | nil => exact absurd rfl h
  | cons c cur => rfl

/-- A text without separators, then a separator, is a token. -/
theorem tokensFrom_token {sep : Char → Bool} {u : Text} {c : Char} (t : Text) (h : ∀ c ∈ u, sep c = false)
    (hu : u ≠ []) (hc : sep c = true) : tokensFrom sep [] (u ++ c :: t) = u :: tokensFrom sep [] t := by
  rw [tokensFrom_append [] _ h, List.append_nil, tokensFrom, if_pos hc,
    emitToken_of_ne_nil _ (mt List.reverse_eq_nil_iff.mp hu), List.reverse_reverse]

theorem splitLines_ne_nil (t : Text) : splitLines t ≠ [] := by
  cases t with
  | nil => nofun
  | cons c t =>
    rw [splitLines]
    split
    · nofun
    · split <;> nofun

/-- A line feed separates tokens, so cutting a text at the line feeds first changes no token; `cur` is the token being
read. -/
theorem tokensFrom_splitLines {sep : Char → Bool} (hsep : sep '\n' = true) {t l : Text} {ls : List Text} (cur : Text)
    (h : splitLines t = l :: ls) :
    tokensFrom sep cur l ++ ls.flatMap (tokensFrom sep []) = tokensFrom sep cur t := by
  induction t generalizing cur l ls with
  | nil =>
    cases h
    rw [List.flatMap_nil, List.append_nil]
  | cons c t ih =>
    obtain ⟨l', ls', hl'⟩ := List.exists_cons_of_ne_nil (splitLines_ne_nil t)
    rw [splitLines, hl'] at h
    by_cases hc : c = '\n'
    · rw [if_pos hc] at h
      cases h
      rw [hc, tokensFrom, tokensFrom, if_pos hsep, List.flatMap_cons, ih [] hl']
      cases cur <;> rfl
    · rw [if_neg hc] at h
      cases h
      rw [tokensFrom, tokensFrom]
      split
      · rw [← ih [] hl']
        cases cur <;> rfl
      · exact ih (c :: cur) hl'

theorem flatMap_tokensFrom_splitLines (t : Text) :
    (splitLines t).flatMap (tokensFrom isSpace []) = tokensFrom isSpace [] t := by
  obtain ⟨l, ls, h⟩ := List.exists_cons_of_ne_nil (splitLines_ne_nil t)
  rw [h, List.flatMap_cons, tokensFrom_splitLines rfl [] h]

/-! ### One word -/

theorem digitValue_hexDigit : ∀ n < 16, digitValue 16 (hexDigit n) = some n := by decide

theorem isSpace_hexDigit : ∀ n < 16, isSpace (hexDigit n) = false := by decide

theorem isSpace_renderWord (w : Word) : ∀ c ∈ renderWord w, isSpace c = false := by
  have := w.isLt
  simp only [renderWord, List.forall_mem_cons]
  exact ⟨isSpace_hexDigit _ (by omega), isSpace_hexDigit _ (by omega), isSpace_hexDigit _ (by omega),
    isSpace_hexDigit _ (by omega), nofun⟩

/-- The four digits of a word add up to its number. -/
theorem readHexWord_renderWord (w : Word) : readHexWord (renderWord w) = some w := by
  have hw := w.isLt
  have value : parseDigits 16 (renderWord w) = some w.toNat := by
    simp only [renderWord, parseDigits, digitsFrom]
    rw [digitValue_hexDigit _ (by omega), digitValue_hexDigit _ (by omega), digitValue_hexDigit _ (by omega),
      digitValue_hexDigit _ (by omega)]
    simp only [Option.some.injEq]
    omega
  have four : (renderWord w).length = 4 := rfl
  rw [readHexWord, if_pos four, value, Option.map_some, BitVec.ofNat_toNat, BitVec.setWidth_eq]

/-! ### The whole image -/

theorem renderWords_cons_cons (k : Nat) (w v : Word) (vs : List Word) :
    renderWords k (w :: v :: vs) =
      if k = 7 then renderWord w ++ '\n' :: renderWords 0 (v :: vs)
      else renderWord w ++ ' ' :: renderWords (k + 1) (v :: vs) := rfl

/-- From any column on, the tokens of the rendered words are the words, one by one. -/
theorem tokensFrom_renderWords (k : Nat) (ws : List Word) :
    tokensFrom isSpace [] (renderWords k ws) = ws.map renderWord := by
  induction ws generalizing k with
  | nil => rfl
  | cons w ws ih =>
    have token (c : Char) (t : Text) (hc : isSpace c = true) :
        tokensFrom isSpace [] (renderWord w ++ c :: t) = renderWord w :: tokensFrom isSpace [] t :=
      tokensFrom_token t (isSpace_renderWord w) nofun hc
    cases ws with
    | nil => exact token '\n' [] rfl
    | cons v vs =>
      rw [renderWords_cons_cons, List.map_cons]
      split
      · rw [token '\n' _ rfl, ih]
      · rw [token ' ' _ rfl, ih]

theorem readHexWords_map_renderWord (ws : List Word) : readHexWords (ws.map renderWord) = some ws := by
  induction ws with
  | nil => rfl
  | cons w ws ih => simp only [List.map_cons, readHexWords, readHexWord_renderWord, ih]

/-- Settles O60: the first line is the header, and the tokens of the others are the words. -/
theorem imageTextRoundTrips : Obligations.ImageTextRoundTrips := by
  unfold Obligations.ImageTextRoundTrips
  intro ws
  have lines : splitLines (renderImage ws) = imageHeader :: splitLines (renderWords 0 ws) := rfl
  have header : trim imageHeader = imageHeader := by decide
  simp only [readImage, lines, header, if_true]
  rw [flatMap_tokensFrom_splitLines, tokensFrom_renderWords, readHexWords_map_renderWord]

end Sys2Proof.Machine
end
